-- ==== Sys2Proof/Word.lean ====
section
/-! DEFINITION. The word types of the block. -/

namespace Sys2Proof

/-- One byte: a window byte or a pattern character (R13, R50). -/
abbrev Byte := BitVec 8

/-- One field value, `FIELD_W` = 48 bits wide (R8). -/
abbrev FieldVal := BitVec 48

end Sys2Proof
end

