-- ==== Sys2Proof/Config.lean ====
section
/-! DEFINITION. The parameters an implementation fixes (R8). -/

namespace Sys2Proof

/-- The OPEN parameters of R8 and the field alphabet. `State.cfg` carries one of these, so a claim about all
states is a claim about all parameter values (log 1). -/
structure Config where
  /-- `N_TEMPLATES`, capacity of the Pattern Table. -/
  nTemplates : Nat
  /-- `MID_W`, width of a mnemonic identifier. -/
  midW : Nat
  /-- `TAG_W`, width of an emitter tag. -/
  tagW : Nat
  /-- `PAT_MAX_CHARS`, longest pattern string, spaces included. -/
  patMaxChars : Nat
  /-- `FIELD_ALPHABET`, the character codes of the field letters. -/
  fieldAlphabet : List Byte
  /-- `N_LOOKUP_PORTS`, number of command ports sharing the table. -/
  nLookupPorts : Nat
  deriving DecidableEq, Repr

/-- The 52 ASCII letters in character-code order: the default `FIELD_ALPHABET` (R8, R13, R73). -/
def asciiLetters : List Byte :=
  (List.range 26).map (fun j => BitVec.ofNat 8 (0x41 + j)) ++ (List.range 26).map (fun j => BitVec.ofNat 8 (0x61 + j))

/-- `PAT_LENGTHS` of R8: the legal template lengths in symbols (R74). -/
abbrev patLengths : List Nat := [16, 32, 48]

/-- `WIN_BYTES` of R8: window bytes the block can receive. -/
def winBytes : Nat := 6

/-- The bounds R8 puts on the parameters. The alphabet is a set of letters listed once each in
character-code order (DEDUCED from R72 case 1 and R73, log 8). -/
abbrev Config.Wf (cfg : Config) : Prop :=
  1 ≤ cfg.nTemplates ∧ 1 ≤ cfg.midW ∧ 1 ≤ cfg.tagW ∧ 59 ≤ cfg.patMaxChars ∧ 1 ≤ cfg.nLookupPorts ∧
  List.Sublist cfg.fieldAlphabet asciiLetters

/-- The parameter values the spec's test vectors are written for (95_test_vectors.md section 1).
DESIGN CHOICE (log 1): `State.reset` uses them; unsafe for a claim about `State.reset` alone. -/
def Config.vectors : Config :=
  { nTemplates := 16, midW := 8, tagW := 8, patMaxChars := 80, fieldAlphabet := asciiLetters, nLookupPorts := 1 }

end Sys2Proof
end

