-- ==== Sys2Proof/Machine/Widths.lean ====
section
/-! DEFINITION. The widths that follow from the parameters (R8, R9, R79) and the slot numbers of the field
letters (R73). -/

namespace Sys2Proof

/-- `N_SLOTS`, the size of `FIELD_ALPHABET` (R8). -/
def Config.nSlots (cfg : Config) : Nat := cfg.fieldAlphabet.length

/-- `ceil(log2 n)`, the width computation of R9 and R79 (0 for `n ≤ 1`). -/
def clog2 (n : Nat) : Nat := if n ≤ 1 then 0 else Nat.log2 (n - 1) + 1

/-- `TIDX_W = max(1, ceil(log2(N_TEMPLATES)))` (R9). -/
def Config.tidxW (cfg : Config) : Nat := max 1 (clog2 cfg.nTemplates)

/-- `CNT_W = ceil(log2(N_TEMPLATES + 1))` (R9). -/
def Config.cntW (cfg : Config) : Nat := clog2 (cfg.nTemplates + 1)

/-- Width of `arg_pat_len`: `ceil(log2(PAT_MAX_CHARS + 1))` (R79). -/
def Config.patLenW (cfg : Config) : Nat := clog2 (cfg.patMaxChars + 1)

/-- The slot of a field letter: its position in `FIELD_ALPHABET` in ascending character-code order (R73);
`none` for a character that is no field letter. -/
def Config.slotOf (cfg : Config) (ch : Byte) : Option Nat :=
  if ch ∈ cfg.fieldAlphabet then some (cfg.fieldAlphabet.countP (fun d => d.toNat < ch.toNat)) else none

end Sys2Proof
end

