-- ==== Sys2Proof/Syntax.lean ====
section
/-! DEFINITION. The commands of the block (R80, R81), one constructor per row of spec/opcode_table.json, their
operands, and the input signals of one command port (R79). -/

namespace Sys2Proof

/-- The window operand of a lookup: six bytes, `w0` at the lowest address (R50). -/
structure Window where
  w0 : Byte
  w1 : Byte
  w2 : Byte
  w3 : Byte
  w4 : Byte
  w5 : Byte
  deriving DecidableEq, Repr

/-- The window of six zero bytes (R89: "Unlisted window bytes are 0"). -/
def Window.zero : Window := ⟨0, 0, 0, 0, 0, 0⟩

/-- A pattern string as the port presents it (R79): its length `arg_pat_len` and the characters the port
carries, `arg_pat[0 .. min(arg_pat_len, PAT_MAX_CHARS) - 1]`. A string longer than the port has no further
characters on it, and none matters (R72 case 3; log 6). -/
structure PatStr where
  len : Nat
  chars : List Byte
  deriving DecidableEq, Repr

/-- The commands of R80 with the operands of R81. -/
inductive Instr where
  /-- `cmd = 000` (R101). -/
  | nop
  /-- `cmd = 001`, REGISTER mid, pattern, tag (R102). -/
  | register (mid : Nat) (pat : PatStr) (tag : Nat)
  /-- `cmd = 010`, SUPERSEDE mid, tag (R107). -/
  | supersede (mid : Nat) (tag : Nat)
  /-- `cmd = 011` (R108). -/
  | sealTable
  /-- `cmd = 100`, MATCH tidx, window, avail (R137). -/
  | matchTemplate (tidx : Nat) (w : Window) (avail : BitVec 3)
  /-- `cmd = 101`, RESOLVE window, avail (R163). -/
  | resolve (w : Window) (avail : BitVec 3)
  /-- `cmd = 110`, reserved (R84, R109). -/
  | reserved110
  /-- `cmd = 111`, reserved (R84, R109). -/
  | reserved111
  deriving DecidableEq, Repr

/-- The input signals of one command port (R79), but for `rst`, which is an event of its own (R251, log 4).
`argPat` lists the lanes `arg_pat[0]`, `arg_pat[1]`, ... -/
structure Signals where
  cmd : BitVec 3
  argMid : Nat := 0
  argTag : Nat := 0
  argPat : List Byte := []
  argPatLen : Nat := 0
  argTidx : Nat := 0
  window : Window := Window.zero
  avail : BitVec 3 := 0
  deriving DecidableEq, Repr

end Sys2Proof
end

