-- ==== Sys2Proof/WellFormed.lean ====
section
/-! DEFINITION. Which operands the command port can carry: every operand fits its signal (R79, R81). -/

namespace Sys2Proof

/-- A mnemonic identifier fits `arg_mid`, `MID_W` bits (R79). -/
def midFits (cfg : Config) (mid : Nat) : Bool := mid < 2 ^ cfg.midW

/-- An emitter tag fits `arg_tag`, `TAG_W` bits (R79). -/
def tagFits (cfg : Config) (tag : Nat) : Bool := tag < 2 ^ cfg.tagW

/-- A table index fits `arg_tidx`, `TIDX_W` bits (R79). -/
def tidxFits (cfg : Config) (k : Nat) : Bool := k < 2 ^ cfg.tidxW

/-- A pattern's length fits `arg_pat_len`, and its characters are those the port carries (R79). -/
def patFits (cfg : Config) (p : PatStr) : Bool :=
  p.len < 2 ^ cfg.patLenW && p.chars.length == min p.len cfg.patMaxChars

/-- The command can be presented on a port of this configuration. -/
def Instr.wellFormed (cfg : Config) : Instr → Bool
  | .nop => true
  | .register mid pat tag => midFits cfg mid && patFits cfg pat && tagFits cfg tag
  | .supersede mid tag => midFits cfg mid && tagFits cfg tag
  | .sealTable => true
  | .matchTemplate tidx _ _ => tidxFits cfg tidx
  | .resolve _ _ => true
  | .reserved110 => true
  | .reserved111 => true

end Sys2Proof
end

