-- ==== Sys2Proof/Decode.lean ====
section
/-! DEFINITION. From the signals of a command port to a command (R79 to R81), and back (R89). All eight codes of
`cmd` are assigned (R80) and every signal has a meaning at every value, so nothing is rejected: the two reserved
codes are commands with a response of their own (R84). -/

namespace Sys2Proof

/-- The pattern operand: `arg_pat[0 .. arg_pat_len-1]`, as far as the port's `PAT_MAX_CHARS` lanes carry it (R79).
A lane the list does not name is 0, like an unlisted window byte (R89; log 6). -/
def decodePat (cfg : Config) (σ : Signals) : PatStr :=
  let len := σ.argPatLen % 2 ^ cfg.patLenW
  { len := len, chars := (List.range (min len cfg.patMaxChars)).map (fun j => σ.argPat.getD j 0) }

/-- The mnemonic identifier on the `MID_W` wires of `arg_mid` (R79; log 6). -/
def decodeMid (cfg : Config) (σ : Signals) : Nat := σ.argMid % 2 ^ cfg.midW

/-- The emitter tag on the `TAG_W` wires of `arg_tag` (R79; log 6). -/
def decodeTag (cfg : Config) (σ : Signals) : Nat := σ.argTag % 2 ^ cfg.tagW

/-- The table index on the `TIDX_W` wires of `arg_tidx` (R79; log 6). -/
def decodeTidx (cfg : Config) (σ : Signals) : Nat := σ.argTidx % 2 ^ cfg.tidxW

/-- The command on a port: its code (R80) and its operands (R81); unused signals are ignored (R79). -/
def decode (cfg : Config) (σ : Signals) : Instr :=
  match σ.cmd with
  | 0b000#3 => .nop
  | 0b001#3 => .register (decodeMid cfg σ) (decodePat cfg σ) (decodeTag cfg σ)
  | 0b010#3 => .supersede (decodeMid cfg σ) (decodeTag cfg σ)
  | 0b011#3 => .sealTable
  | 0b100#3 => .matchTemplate (decodeTidx cfg σ) σ.window σ.avail
  | 0b101#3 => .resolve σ.window σ.avail
  | 0b110#3 => .reserved110
  | 0b111#3 => .reserved111

/-- The `cmd` code of a command (R80). -/
def Instr.cmd : Instr → BitVec 3
  | .nop => 0b000#3
  | .register _ _ _ => 0b001#3
  | .supersede _ _ => 0b010#3
  | .sealTable => 0b011#3
  | .matchTemplate _ _ _ => 0b100#3
  | .resolve _ _ => 0b101#3
  | .reserved110 => 0b110#3
  | .reserved111 => 0b111#3

/-- The signals of a command: its code, and its operands on the signals of R79; the others 0 (R89). -/
def encode : Instr → Signals
  | .nop => { cmd := 0b000#3 }
  | .register mid pat tag =>
      { cmd := 0b001#3, argMid := mid, argTag := tag, argPat := pat.chars, argPatLen := pat.len }
  | .supersede mid tag => { cmd := 0b010#3, argMid := mid, argTag := tag }
  | .sealTable => { cmd := 0b011#3 }
  | .matchTemplate tidx w avail => { cmd := 0b100#3, argTidx := tidx, window := w, avail := avail }
  | .resolve w avail => { cmd := 0b101#3, window := w, avail := avail }
  | .reserved110 => { cmd := 0b110#3 }
  | .reserved111 => { cmd := 0b111#3 }

/-- The signals that a word of spec/opcode_table.json drives: `cmd[2:0]` is bits 2 to 0, and every operand
signal is 0. The table gives no other bit a meaning, and the port has no other `cmd` wire (log 6). -/
def signalsOfTableWord (w : Nat) : Signals := { cmd := BitVec.ofNat 3 w }

/-- The host's view of the decoder: the command the word of an opcode-table row stands for. A word of fewer
than the 3 bits of `cmd` is refused. -/
def decodeTableWord (nbits w : Nat) : Option Instr :=
  if nbits < 3 then none else some (decode Config.vectors (signalsOfTableWord w))

end Sys2Proof
end

