-- ==== Sys2Proof/Machine/State.lean ====
section
/-! DEFINITION. The state of the block (R20 to R31), its value after reset (R33), and the two ways a step can stop. -/

namespace Sys2Proof.Machine

/-- One stored symbol of a template (R22): literal 0, literal 1, or a bit of the field of a slot. R78 lets a
model hold symbols in any form that keeps kind and slot; `symBits` in Machine/Operands.lean gives the 8-bit
layout (log 7). -/
inductive Symbol where
  | l0
  | l1
  | field (slot : Nat)
  deriving DecidableEq, Repr

/-- One Pattern Table entry in compiled form (R22). -/
structure Entry where
  mid : Nat
  tag : Nat
  nsym : Nat
  spec : Nat
  sym : List Symbol
  deriving DecidableEq, Repr

/-- What an entry holds at reset. The spec leaves it unspecified (R33, R37): DESIGN CHOICE (log 5). -/
def Entry.blank : Entry := { mid := 0, tag := 0, nsym := 0, spec := 0, sym := [] }

/-- The response codes that are ever produced (R221); `RespCode.code` in Machine/Flags.lean gives the 4 bits. -/
inductive RespCode where
  | ok
  | noMatch
  | malformedTemplate
  | supersedeTargetMissing
  | tableFull
  | duplicateMnemonic
  | wrongPhase
  | badIndex
  | configFaulted
  | illegalCommand
  deriving DecidableEq, Repr

/-- The response register of one port (R31), with the fields of R82. `fval` lists `fval[0]` to
`fval[N_SLOTS-1]`; bit `c` of `fmask` is its bit for slot `c`. -/
structure Resp where
  rc : RespCode
  hit : Bool
  tidx : Nat
  mid : Nat
  tag : Nat
  len : Nat
  consume : Nat
  spec : Nat
  fmask : Nat
  fval : List FieldVal
  status : BitVec 8
  count : Nat
  deriving DecidableEq, Repr

/-- The response with code `rc` and every other field 0, for a block of `nSlots` field slots. -/
def Resp.zero (nSlots : Nat) (rc : RespCode) : Resp :=
  { rc := rc, hit := false, tidx := 0, mid := 0, tag := 0, len := 0, consume := 0, spec := 0, fmask := 0,
    fval := List.replicate nSlots 0, status := 0, count := 0 }

/-- What the environment does on a port between two commands or as one (R6, R61, R251): assert `rst`, or
issue a command with its signals. -/
inductive Event where
  | rst (port : Nat)
  | command (port : Nat) (sig : Signals)
  deriving DecidableEq, Repr

/-- The state of the block (R20), with its parameters, and two fields of the model's own (`port`, `input`). -/
structure State where
  /-- The parameters (R8). No step changes them (log 1). -/
  cfg : Config
  /-- `TBL`, `N_TEMPLATES` entries (R22); those below `count` are registered (R23). -/
  tbl : List Entry
  /-- `COUNT` (R23). -/
  count : Nat
  /-- `STATUS` (R25). -/
  status : BitVec 8
  /-- `RESP` of each port (R31, R235). -/
  resp : List Resp
  /-- The MODEL's own: the port whose command is served (log 3). -/
  port : Nat
  /-- The MODEL's own: what the environment will do, in the total order of R61 (log 2). -/
  input : List Event
  deriving DecidableEq, Repr

/-- Why a step can stop with a fault. -/
inductive Fault where
  /-- Raised by `step` alone, when the environment's list names a port that the configuration does not
  have (R8, R235; log 3). No command raises it: the block has no traps (R220). Safe. -/
  | noSuchPort
  deriving DecidableEq, Repr

/-- Why a step can be refused. -/
inductive Refusal where
  /-- Raised by `exec` for an instruction without a meaning: no instruction of this model. Safe. -/
  | notModelled (mnemonic : String)
  deriving DecidableEq, Repr

/-- The block with parameters `cfg` right after reset (R33): the table empty, phase BUILD, no fault recorded,
every field of every `RESP` 0. Table entries hold `Entry.blank` (DESIGN CHOICE, log 5); the environment has
announced nothing (log 2). -/
def State.initial (cfg : Config) : State :=
  { cfg := cfg
    tbl := List.replicate cfg.nTemplates Entry.blank
    count := 0
    status := 0x00#8
    resp := List.replicate cfg.nLookupPorts (Resp.zero cfg.nSlots .ok)
    port := 0
    input := [] }

/-- The machine right after reset, with the parameters of the spec's test vectors (DESIGN CHOICE, log 1). -/
def State.reset : State := State.initial Config.vectors

end Sys2Proof.Machine
end

