-- ==== Sys2Proof/Machine/Flags.lean ====
section
/-! DEFINITION. The flags that persist: the bits of `STATUS` (R25 to R28); and the 4-bit response codes (R221). -/

namespace Sys2Proof.Machine

/-- `STATUS.SEALED`, bit 0: the phase is SEALED (R24, R25). -/
def State.sealed (s : State) : Bool := s.status.getLsbD 0

/-- `STATUS.CFG_FAULT`, bit 1: a REGISTER was rejected (R26). -/
def State.cfgFault (s : State) : Bool := s.status.getLsbD 1

/-- `STATUS.SUPERSEDE_MISS`, bit 2: a SUPERSEDE named an unknown `mid` (R27). -/
def State.supersedeMiss (s : State) : Bool := s.status.getLsbD 2

/-- `STATUS.SEALED <- 1`; the other bits stay (R108). -/
def State.setSealed (s : State) : State := { s with status := s.status ||| 0x01#8 }

/-- `STATUS.CFG_FAULT <- 1`; the other bits stay (R102). -/
def State.setCfgFault (s : State) : State := { s with status := s.status ||| 0x02#8 }

/-- `STATUS.SUPERSEDE_MISS <- 1`; the other bits stay (R107). -/
def State.setSupersedeMiss (s : State) : State := { s with status := s.status ||| 0x04#8 }

/-- The 4-bit value of a response code (R221). -/
def RespCode.code : RespCode → BitVec 4
  | .ok => 0x0#4
  | .noMatch => 0x1#4
  | .malformedTemplate => 0x2#4
  | .supersedeTargetMissing => 0x3#4
  | .tableFull => 0x4#4
  | .duplicateMnemonic => 0x5#4
  | .wrongPhase => 0x6#4
  | .badIndex => 0x7#4
  | .configFaulted => 0x8#4
  | .illegalCommand => 0x9#4

end Sys2Proof.Machine
end

