-- ==== Sys2Proof/Machine/Operands.lean ====
section
/-! DEFINITION. The operand forms: reading a bit of the window (R50 to R53), compiling a pattern string (R70 to
R78, R103), and assembling field values (R29, R83, R132). -/

namespace Sys2Proof.Machine

/-- `w[j]`. No rule reads an index above 5 (R51, R56); there the model answers 0 (log 11). -/
def windowByte (w : Window) : Nat → Byte
  | 0 => w.w0
  | 1 => w.w1
  | 2 => w.w2
  | 3 => w.w3
  | 4 => w.w4
  | 5 => w.w5
  | _ => 0

/-- `b(i)`, the window bit that symbol `i` is compared with or accumulated from (R52): bit `7 - (i mod 8)` of
byte `(i div 8) xor 1`. -/
def windowBit (w : Window) (i : Nat) : Bool :=
  (windowByte w ((i / 8) ^^^ 1)).getLsbD (7 - i % 8)

/-- `n = min(avail, 6)`, the number of valid window bytes (R51). -/
def validBytes (avail : BitVec 3) : Nat := min avail.toNat winBytes

/-- The stored form of one non-space character (R103): a literal, or the field of its letter's slot; `none`
for a character outside the grammar (R72 case 1). -/
def symbolOf (cfg : Config) (ch : Byte) : Option Symbol :=
  if ch = 0x30#8 then some .l0
  else if ch = 0x31#8 then some .l1
  else (cfg.slotOf ch).map .field

/-- The symbols of a string, spaces (0x20) skipped (R71); `none` when a character is outside the grammar. -/
def symbolsOf (cfg : Config) : List Byte → Option (List Symbol)
  | [] => some []
  | ch :: rest =>
    if ch = 0x20#8 then symbolsOf cfg rest
    else
      match symbolOf cfg ch, symbolsOf cfg rest with
      | some x, some xs => some (x :: xs)
      | _, _ => none

/-- Whether a symbol is a literal. -/
def isLiteral : Symbol → Bool
  | .l0 => true
  | .l1 => true
  | .field _ => false

/-- Specificity: the number of literal symbols (R75). -/
def specificity (sym : List Symbol) : Nat := sym.countP isLiteral

/-- A compiled template (R103). -/
structure Compiled where
  nsym : Nat
  spec : Nat
  sym : List Symbol
  deriving DecidableEq, Repr

/-- `Compile(p)` of R103; `none` is `Malformed`. -/
def compile (cfg : Config) (p : PatStr) : Option Compiled :=
  if p.len > cfg.patMaxChars then none
  else
    match symbolsOf cfg p.chars with
    | none => none
    | some sym =>
      if sym.length ∈ patLengths then some { nsym := sym.length, spec := specificity sym, sym := sym } else none

/-- The 8-bit storage layout of a symbol (R78): kind in bits 7:6, slot in bits 5:0. -/
def symBits : Symbol → BitVec 8
  | .l0 => 0b00#2 ++ 0#6
  | .l1 => 0b01#2 ++ 0#6
  | .field c => 0b10#2 ++ BitVec.ofNat 6 c

/-- The byte length of a template of `nsym` symbols: `L = nsym / 8` (R76). -/
def byteLen (nsym : Nat) : Nat := nsym / 8

/-- `ACC` and `PRESENT` of one match attempt (R29): the slot values, and the mask of the slots seen. -/
structure Acc where
  fval : List FieldVal
  present : Nat
  deriving DecidableEq, Repr

/-- Every slot 0, no slot present: how each attempt starts (R29, R130). -/
def Acc.clear (nSlots : Nat) : Acc := { fval := List.replicate nSlots 0, present := 0 }

/-- `(v << 1) | b` in a slot of 48 bits (R83, R132). -/
def shiftIn (v : FieldVal) (b : Bool) : FieldVal := (v <<< 1) ||| (if b then 1#48 else 0#48)

/-- Take bit `b` into slot `c` and mark the slot present (R130, R132). -/
def Acc.push (a : Acc) (c : Nat) (b : Bool) : Acc :=
  { fval := a.fval.modify c (fun v => shiftIn v b), present := a.present ||| (1 <<< c) }

end Sys2Proof.Machine
end

