-- ==== Sys2Proof/Machine/Ops.lean ====
section
/-! DEFINITION. The named operations over the state: the table, the matcher and the priority order, the response,
the rejection of a REGISTER, reset, and fetching the next command. The block takes no exceptions (R220, R229): its
error responses are `State.respond` and `State.reject`, and the return to a clean state is `State.resetNow` (R230). -/

namespace Sys2Proof.Machine

/-! ## Responding (R12, R31) -/

/-- The response with code `rc` and every field that R12 leaves unnamed at 0. -/
def State.blank (s : State) (rc : RespCode) : Resp := Resp.zero s.cfg.nSlots rc

/-- `respond(...)` of R12: put `r` on the response port of the port served, with `STATUS` and `COUNT` as they
are after the command (R31, R82). Other ports' `RESP` stay (R235). -/
def State.respond (s : State) (r : Resp) : State :=
  { s with resp := s.resp.set s.port { r with status := s.status, count := s.count } }

/-- A rejected REGISTER (R102): set `CFG_FAULT` and respond `rc`. -/
def State.reject (s : State) (rc : RespCode) : State := s.setCfgFault.respond (s.blank rc)

/-! ## The Pattern Table (R22, R23) -/

/-- `TBL[k]` for a registered entry, `k < COUNT` (R23, R37). -/
def State.entry? (s : State) (k : Nat) : Option Entry := if k < s.count then s.tbl[k]? else none

/-- The registered entries in registration order (R23). -/
def State.registered (s : State) : List Entry := s.tbl.take s.count

/-- The registered entry that has identifier `mid`; at most one has (R102, R104, R107). -/
def State.findMid (s : State) (mid : Nat) : Option Nat := s.registered.findIdx? (fun e => e.mid == mid)

/-- `TBL[COUNT] <- e; COUNT <- COUNT + 1` (R102). -/
def State.append (s : State) (e : Entry) : State := { s with tbl := s.tbl.set s.count e, count := s.count + 1 }

/-- `TBL[k].tag <- tag` (R107). -/
def State.retag (s : State) (k : Nat) (tag : Nat) : State :=
  { s with tbl := s.tbl.modify k (fun e => { e with tag := tag }) }

/-! ## The Bit Matcher (R130) -/

/-- The walk of R130 over the symbols from index `i`: literals must agree with their window bits (R131), field
bits go into their slots (R132). -/
def matchSyms (w : Window) : Nat → List Symbol → Acc → Option Acc
  | _, [], a => some a
  | i, .l0 :: rest, a => if windowBit w i then none else matchSyms w (i + 1) rest a
  | i, .l1 :: rest, a => if windowBit w i then matchSyms w (i + 1) rest a else none
  | i, .field c :: rest, a => matchSyms w (i + 1) rest (a.push c (windowBit w i))

/-- `Match` of R130 on entry `e`, window `w` and `n` valid bytes. -/
def matchEntry (nSlots : Nat) (e : Entry) (w : Window) (n : Nat) : Option Acc :=
  if byteLen e.nsym > n then none else matchSyms w 0 e.sym (Acc.clear nSlots)

/-! ## The Opcode Resolver (R160, R161) -/

/-- Insert index `k`, above all of `ks`, behind every index of at least its specificity (R160). -/
def orderInsert (spec : Nat → Nat) (k : Nat) : List Nat → List Nat
  | [] => [k]
  | j :: js => if spec k ≤ spec j then j :: orderInsert spec k js else k :: j :: js

/-- The indices below `n` by descending specificity, lower index first among equals (R160). -/
def priorityOrder (spec : Nat → Nat) (n : Nat) : List Nat :=
  (List.range n).foldl (fun ks k => orderInsert spec k ks) []

/-- `TBL[k].spec` (R22). -/
def State.specAt (s : State) (k : Nat) : Nat :=
  match s.tbl[k]? with
  | some e => e.spec
  | none => 0

/-- `ORDER` (R30, R160). -/
def State.order (s : State) : List Nat := priorityOrder s.specAt s.count

/-- `Match(k, w, n)` of R130 on entry `k`: the entry with its accumulated fields, or a miss. -/
def State.matchAt (s : State) (w : Window) (n : Nat) (k : Nat) : Option (Nat × Entry × Acc) :=
  match s.entry? k with
  | none => none
  | some e => (matchEntry s.cfg.nSlots e w n).map (fun a => (k, e, a))

/-- `Resolve(w, n)` of R161: the first entry of `ORDER` that matches, with its fields. -/
def State.resolve? (s : State) (w : Window) (n : Nat) : Option (Nat × Entry × Acc) :=
  s.order.findSome? (fun k => s.matchAt w n k)

/-- The response to a lookup that found entry `k` (R137, R163). -/
def hitResp (k : Nat) (e : Entry) (a : Acc) : Resp :=
  { rc := .ok, hit := true, tidx := k, mid := e.mid, tag := e.tag, len := byteLen e.nsym, consume := byteLen e.nsym,
    spec := e.spec, fmask := a.present, fval := a.fval, status := 0, count := 0 }

/-! ## Reset and fetch (R250, R251, R61) -/

/-- Every piece of the block's state, of every port, at its reset value (R250, R251). The parameters stay, and
what the environment will do next is not the block's to reset (log 4). -/
def State.resetNow (s : State) : State := { State.initial s.cfg with input := s.input }

/-- What the next event of the environment asks of the block. -/
inductive Fetched where
  /-- Nothing is issued. -/
  | idle
  /-- `rst` is asserted between two commands, in state `s`. -/
  | reset (s : State)
  /-- Command `i` is issued on the port that `s` now serves. -/
  | run (i : Instr) (s : State)
  /-- The event names a port the configuration does not have. -/
  | noSuchPort
  deriving DecidableEq, Repr

/-- Take the next event off the environment's list (R61) and decode it. -/
def State.fetch (s : State) : Fetched :=
  match s.input with
  | [] => .idle
  | .rst p :: rest => if p < s.cfg.nLookupPorts then .reset { s with input := rest } else .noSuchPort
  | .command p σ :: rest =>
    if p < s.cfg.nLookupPorts then .run (decode s.cfg σ) { s with port := p, input := rest } else .noSuchPort

end Sys2Proof.Machine
end

