-- ==== Sys2Proof/Machine/Configuration.lean ====
section
/-! DEFINITION. The meanings of the configuration commands (40_configuration.md): NOP, REGISTER, SUPERSEDE, SEAL
and the two reserved codes. -/

namespace Sys2Proof.Machine

/-- NOP (R101). -/
def execNop (s : State) : Host.Outcome State Fault Refusal := .next (s.respond (s.blank .ok))

/-- REGISTER (R102), its checks in the order of R227. -/
def execRegister (mid : Nat) (pat : PatStr) (tag : Nat) (s : State) : Host.Outcome State Fault Refusal :=
  .next <|
    if s.sealed then s.reject .wrongPhase
    else
      match compile s.cfg pat with
      | none => s.reject .malformedTemplate
      | some c =>
        if (s.findMid mid).isSome then s.reject .duplicateMnemonic
        else if s.count = s.cfg.nTemplates then s.reject .tableFull
        else
          (s.append { mid := mid, tag := tag, nsym := c.nsym, spec := c.spec, sym := c.sym }).respond
            { s.blank .ok with tidx := s.count }

/-- SUPERSEDE (R107). -/
def execSupersede (mid : Nat) (tag : Nat) (s : State) : Host.Outcome State Fault Refusal :=
  .next <|
    match s.findMid mid with
    | some k => (s.retag k tag).respond { s.blank .ok with tidx := k }
    | none => s.setSupersedeMiss.respond (s.blank .supersedeTargetMissing)

/-- SEAL (R108). -/
def execSealTable (s : State) : Host.Outcome State Fault Refusal :=
  .next <|
    if s.sealed then s.respond (s.blank .wrongPhase)
    else s.setSealed.respond (s.blank .ok)

/-- Reserved code `110` (R109). -/
def execReserved110 (s : State) : Host.Outcome State Fault Refusal := .next (s.respond (s.blank .illegalCommand))

/-- Reserved code `111` (R109). -/
def execReserved111 (s : State) : Host.Outcome State Fault Refusal := .next (s.respond (s.blank .illegalCommand))

end Sys2Proof.Machine
end

