-- ==== Sys2Proof/Machine/Lookup.lean ====
section
/-! DEFINITION. The meanings of the lookup commands: MATCH (41_bit_matcher.md) and RESOLVE
(42_opcode_resolver.md). They write `RESP` only (R58). -/

namespace Sys2Proof.Machine

/-- MATCH (R137), its checks in the order of R227. A miss has `consume = 0`. -/
def execMatchTemplate (k : Nat) (w : Window) (avail : BitVec 3) (s : State) : Host.Outcome State Fault Refusal :=
  .next <|
    if !s.sealed then s.respond (s.blank .wrongPhase)
    else if s.cfgFault then s.respond (s.blank .configFaulted)
    else
      match s.entry? k with
      | none => s.respond (s.blank .badIndex)
      | some e =>
        match matchEntry s.cfg.nSlots e w (validBytes avail) with
        | none => s.respond (s.blank .noMatch)
        | some a => s.respond (hitResp k e a)

/-- RESOLVE (R163), its checks in the order of R227. A miss has `consume = 2` (R164). -/
def execResolve (w : Window) (avail : BitVec 3) (s : State) : Host.Outcome State Fault Refusal :=
  .next <|
    if !s.sealed then s.respond (s.blank .wrongPhase)
    else if s.cfgFault then s.respond (s.blank .configFaulted)
    else
      match s.resolve? w (validBytes avail) with
      | none => s.respond { s.blank .noMatch with consume := 2 }
      | some (k, e, a) => s.respond (hitResp k e a)

end Sys2Proof.Machine
end

