-- ==== Sys2Proof/Machine/Dispatch.lean ====
section
/-! DEFINITION. One arm per command: `exec` calls its meaning. -/

namespace Sys2Proof.Machine

def exec (i : Instr) (s : State) : Host.Outcome State Fault Refusal :=
  match i with
  | .nop => Sys2Proof.Machine.execNop s
  | .register mid pat tag => Sys2Proof.Machine.execRegister mid pat tag s
  | .supersede mid tag => Sys2Proof.Machine.execSupersede mid tag s
  | .sealTable => Sys2Proof.Machine.execSealTable s
  | .matchTemplate tidx w avail => Sys2Proof.Machine.execMatchTemplate tidx w avail s
  | .resolve w avail => Sys2Proof.Machine.execResolve w avail s
  | .reserved110 => Sys2Proof.Machine.execReserved110 s
  | .reserved111 => Sys2Proof.Machine.execReserved111 s

end Sys2Proof.Machine
end

