-- ==== Sys2Proof/Machine/Step.lean ====
section
/-! DEFINITION. One step of the machine: the next event of the environment, served whole (R6, R61). -/

namespace Sys2Proof.Machine

/-- One step. With nothing issued the block holds its state (R237); `rst` acts between commands (R251); a
command is decoded and executed, and completes in this step: there is no time (R260). -/
def step (s : State) : Host.Outcome State Fault Refusal :=
  match s.fetch with
  | .idle => .next s
  | .reset s' => .next s'.resetNow
  | .run i s' => exec i s'
  | .noSuchPort => .fault .noSuchPort

/-- `s` with the command of an opcode-table word issued next, on port 0, all its operand signals 0. It stands
for the environment issuing that command (log 2). -/
def State.withFetchWord (s : State) (nbits w : Nat) : State :=
  if nbits < 3 then s else { s with input := .command 0 (signalsOfTableWord w) :: s.input }

end Sys2Proof.Machine
end

