-- ==== Sys2Proof/Machine/Tracker.lean ====
section
/-! DEFINITION. The environment's cross-reference tracker and the parameters of the environment model
(43_environment_contract.md, R190 to R196). None of it is state of the block (R5; log 9). -/

namespace Sys2Proof.Machine

/-- What the source leaves to the environment (I8 to I10): every field is a parameter of the driver model, any
function. It is no part of `State` or of `DriverState`. -/
structure Environment where
  /-- `classify(buffer, address)`, the bytes consumed as data; 0 means code (R197). -/
  classify : List Byte → Nat → Nat
  /-- The renderer, a function of `(tag, fmask, fval, address)`: mnemonic text and operand text (R192). -/
  text : Nat → Nat → List FieldVal → Nat → String × String
  /-- The statically known target of a branch, call or relative jump; `none` for any other instruction (R193). It is
  a function of the mnemonic identifier, tag, fields and address: R193 has R192's renderer supply it, a function of
  `(tag, fmask, fval, address)`, while the spec's program P1 tells control flow by `mid`. DESIGN CHOICE: the
  identifier is an argument beside R192's four (log 9). -/
  target : Nat → Nat → Nat → List FieldVal → Nat → Option Nat
  /-- `name_for(address)`, a supplied name with an optional comment (R196). -/
  nameFor : Nat → Option (String × Option String)
  /-- The name synthesized from an address (R196, I9). -/
  synthName : Nat → String

/-- A recorded control transfer (R193). -/
structure JumpCallRecord where
  src : Nat
  dst : Nat
  kind : Nat
  deriving DecidableEq, Repr

/-- `record(from, to, kind)` appends (R194). -/
def recordJump (rs : List JumpCallRecord) (src dst kind : Nat) : List JumpCallRecord :=
  rs ++ [{ src := src, dst := dst, kind := kind }]

/-- `references_to(address)`: the `(from, kind)` of every record to it, in scan order (R194). -/
def referencesTo (rs : List JumpCallRecord) (a : Nat) : List (Nat × Nat) :=
  (rs.filter (fun r => r.dst == a)).map (fun r => (r.src, r.kind))

/-- A label: its address, its generated or supplied name, an optional comment (R194). -/
structure LabelEntry where
  address : Nat
  name : String
  comment : Option String
  deriving DecidableEq, Repr

/-- The label an address gets: the supplied name with its comment, else the synthesized name (R196). DEDUCED: a
synthesized name has no comment, since R196 has only the naming collaborator give one (log 9). -/
def labelEntry (env : Environment) (a : Nat) : LabelEntry :=
  match env.nameFor a with
  | some (name, comment) => { address := a, name := name, comment := comment }
  | none => { address := a, name := env.synthName a, comment := none }

/-- `label_for(address)`: present iff at least one record targets the address (R194). -/
def labelFor (env : Environment) (rs : List JumpCallRecord) (a : Nat) : Option LabelEntry :=
  if rs.any (fun r => r.dst == a) then some (labelEntry env a) else none

/-- The one reference a label line shows: the first in scan order (R195). -/
def firstReference (rs : List JumpCallRecord) (a : Nat) : Option (Nat × Nat) := (referencesTo rs a).head?

/-- `DecodedInstruction` of R191. -/
structure DecodedInstruction where
  address : Nat
  byteLen : Nat
  mnemonic : String
  operands : String
  tidx : Nat
  deriving DecidableEq, Repr

/-- `emit(template, fields, address)` of R190, from the response of a hit. -/
def emit (env : Environment) (r : Resp) (a : Nat) : DecodedInstruction :=
  { address := a, byteLen := r.len, mnemonic := (env.text r.tag r.fmask r.fval a).1,
    operands := (env.text r.tag r.fmask r.fval a).2, tidx := r.tidx }

end Sys2Proof.Machine
end

