-- ==== Sys2Proof/Machine/Driver.lean ====
section
/-! DEFINITION. The environment's stream walker, which drives the block with RESOLVE through the machine's own step
(43_environment_contract.md, R197 to R203). It is outside the block (R5; log 9). -/

namespace Sys2Proof.Machine

/-- What one driver step reads of the engine's buffer: a byte for each address. While the engine writes, the spec does
not say whether the classifier's read, the window's `MemRead` and the bytes the step shows are one read (R57, R197).
DESIGN CHOICE (log 12): each is a read of its own, of any contents; a quiet engine gives all three the same.
Past the buffer `shown` holds what a dump or a data directive shows there: any value (R203, I11). -/
structure Reads where
  /-- The buffer as the classifier reads it. -/
  classified : Nat → Byte
  /-- The buffer as `MemRead` samples it for the window. -/
  sampled : Nat → Byte
  /-- The bytes a line shows. -/
  shown : Nat → Byte

/-- The reads of a step during which the engine does not write: `buf` three times; past it, dumps show `past`. -/
def Reads.quiet (buf : List Byte) (past : Nat → Byte) : Reads :=
  { classified := fun a => buf.getD a 0, sampled := fun a => buf.getD a 0, shown := fun a => buf.getD a (past a) }

/-- One line of the driver's output (R202); the texts are the renderer's, their format is not specified. -/
inductive Line where
  | label (entry : LabelEntry) (ref : Option (Nat × Nat))
  | instruction (i : DecodedInstruction) (raw : List Byte)
  | data (addr len : Nat) (raw : List Byte)
  | dump (addr : Nat) (b0 b1 : Byte)
  deriving DecidableEq, Repr

/-- The driver's own state: the command port it uses (R235), `BUF_LEN`, the decode address and the end of its address
window (R197, R203), the records of its walk (R193), and what it has put out (R202). -/
structure DriverState where
  port : Nat
  bufLen : Nat
  addr : Nat
  endAddr : Nat
  records : List JumpCallRecord
  output : List Line
  deriving DecidableEq, Repr

/-- The driver at the start of a walk over `[start, stop)` (R203). -/
def driverStart (port bufLen start stop : Nat) : DriverState :=
  { port := port, bufLen := bufLen, addr := start, endAddr := stop, records := [], output := [] }

/-- A walk is over a window with `END ≤ BUF_LEN` (R203); there is no other walk. -/
def driverStart? (port bufLen start stop : Nat) : Option DriverState :=
  if stop ≤ bufLen then some (driverStart port bufLen start stop) else none

/-- How a driver step ends (R197, R198, R203). -/
inductive DriverOutcome where
  /-- It goes on. -/
  | running (s : State) (d : DriverState)
  /-- `stop(done)`. -/
  | done (s : State) (d : DriverState)
  /-- `stop(fault rc)`: a configuration fault (R198). -/
  | fault (rc : RespCode) (s : State) (d : DriverState)
  /-- The block has no such port, or did not answer: no case of the spec; the model's own (log 3). -/
  | noAnswer
  deriving DecidableEq, Repr

/-- An event put on a command port now, before whatever is already announced: one step of the machine (R61). -/
def State.issue (s : State) (e : Event) : Host.Outcome State Fault Refusal := step { s with input := e :: s.input }

/-- The buffer of `BUF_LEN` bytes as a list, for the classifier (R197). -/
def bufferOf (bufLen : Nat) (f : Nat → Byte) : List Byte := (List.range bufLen).map f

/-- `classify(buffer, addr)`: the bytes consumed as data, 0 for code (R197). -/
def dataLength (env : Environment) (r : Reads) (d : DriverState) : Nat :=
  env.classify (bufferOf d.bufLen r.classified) d.addr

/-- `a = min(6, BUF_LEN - addr)`: the bytes left in the buffer, at most six (R197). -/
def bytesLeft (d : DriverState) : Nat := min winBytes (d.bufLen - d.addr)

/-- Byte `j` of the window: the buffer's, or zero padding past it (R197, R203). -/
def sampledByte (r : Reads) (d : DriverState) (j : Nat) : Byte :=
  if d.addr + j < d.bufLen then r.sampled (d.addr + j) else 0

/-- `MemRead(addr, a)` followed by zero bytes (R197). -/
def driverWindow (r : Reads) (d : DriverState) : Window :=
  { w0 := sampledByte r d 0, w1 := sampledByte r d 1, w2 := sampledByte r d 2, w3 := sampledByte r d 3,
    w4 := sampledByte r d 4, w5 := sampledByte r d 5 }

/-- The RESOLVE the driver issues: the window, `avail = a` (R197). -/
def driverResolve (r : Reads) (d : DriverState) : Instr :=
  .resolve (driverWindow r d) (BitVec.ofNat 3 (bytesLeft d))

/-- The `n` bytes a line at the decode address shows. -/
def shownBytes (r : Reads) (d : DriverState) (n : Nat) : List Byte :=
  (List.range n).map (fun j => r.shown (d.addr + j))

/-- The Data branch of R197: a data directive over `n` bytes. -/
def driverData (r : Reads) (n : Nat) (d : DriverState) : DriverState :=
  { d with addr := d.addr + n, output := d.output ++ [.data d.addr n (shownBytes r d n)] }

/-- The label line of R197, shown where the scan `labels` has a record to the address (R194, R195, R200). -/
def labelLines (env : Environment) (labels : List JumpCallRecord) (a : Nat) : List Line :=
  match labelFor env labels a with
  | some entry => [.label entry (firstReference labels a)]
  | none => []

/-- The records after the emitter has seen a hit (R193). -/
def recordHit (env : Environment) (q : Resp) (d : DriverState) : List JumpCallRecord :=
  match env.target q.mid q.tag q.fmask q.fval d.addr with
  | some t => recordJump d.records d.addr t q.mid
  | none => d.records

/-- The hit branch of R197: label line, instruction line, record, advance by `consume`. -/
def driverHit (env : Environment) (r : Reads) (labels : List JumpCallRecord) (q : Resp) (d : DriverState) :
    DriverState :=
  { d with
    addr := d.addr + q.consume
    records := recordHit env q d
    output := d.output ++ labelLines env labels d.addr ++ [.instruction (emit env q d.addr) (shownBytes r d q.len)] }

/-- The miss branch of R197: a raw two-byte dump, advance by 2. Its second byte is any value where it lies past the
buffer (R203, I11). No label line stands before it, as R197 has it; nothing may rely on that (D41, N20; log 9). -/
def driverDump (r : Reads) (d : DriverState) : DriverState :=
  { d with
    addr := d.addr + 2
    output := d.output ++ [.dump d.addr (r.shown d.addr) (r.shown (d.addr + 1))] }

/-- One driver step (R197): the RESOLVE goes through the machine's step on the driver's port. What the step reads of
the engine's buffer is `r`, three reads that may differ while the engine writes (DESIGN CHOICE, log 12). `labels` holds
the records of a complete scan (R200); Machine/Views.lean ties it to one. -/
def driverStep (env : Environment) (r : Reads) (labels : List JumpCallRecord) (s : State) (d : DriverState) :
    DriverOutcome :=
  if d.endAddr ≤ d.addr then .done s d
  else if 0 < dataLength env r d then .running s (driverData r (dataLength env r d) d)
  else
    match s.issue (.command d.port (encode (driverResolve r d))) with
    | .next s' =>
      match s'.resp[d.port]? with
      | none => .noAnswer
      | some q =>
        if q.rc = .ok then .running s' (driverHit env r labels q d)
        else if q.rc = .noMatch then .running s' (driverDump r d)
        else .fault q.rc s' d
    | .fault _ => .noAnswer
    | .refused _ => .noAnswer

/-- One turn of a walk: a driver step, or an event that another user of the block puts on a port between two driver
steps (R61, R201, R258). -/
inductive Turn where
  | mine (r : Reads)
  | other (e : Event)

/-- A walk, turn by turn in the order of the commands, until the driver stops or the turns end. -/
def driverWalk (env : Environment) (labels : List JumpCallRecord) :
    List Turn → State → DriverState → DriverOutcome
  | [], s, d => .running s d
  | .other e :: rest, s, d =>
    match s.issue e with
    | .next s' => driverWalk env labels rest s' d
    | .fault _ => .noAnswer
    | .refused _ => .noAnswer
  | .mine r :: rest, s, d =>
    match driverStep env r labels s d with
    | .running s' d' => driverWalk env labels rest s' d'
    | .done s' d' => .done s' d'
    | .fault rc s' d' => .fault rc s' d'
    | .noAnswer => .noAnswer

end Sys2Proof.Machine
end

