-- ==== Sys2Proof/Machine/Views.lean ====
section
/-! DEFINITION. Several views of one block: each scans its address space of interest, and shows its window with the
labels of its own complete scan (R200 to R202), while other views and other users put commands on the ports
(R61, R201, R258). It is outside the block (R5; log 13). -/

namespace Sys2Proof.Machine

/-- The scan policy, a parameter (R200). DESIGN CHOICE of what the two are (log 13). -/
inductive ScanPolicy where
  /-- One full scan before the walk that shows lines. -/
  | preScan
  /-- Another full scan from the start before each step that shows a line. -/
  | rescan
  deriving DecidableEq, Repr

/-- Where a view stands. -/
inductive Phase where
  /-- It scans: it decodes to fill its records, and shows nothing. -/
  | scanning
  /-- It has a complete scan, and shows lines. -/
  | displaying
  /-- The walk that shows lines has ended (R203). -/
  | finished
  /-- A scan or walk stopped with a configuration fault (R198). -/
  | faulted (rc : RespCode)
  /-- The block has no such port (log 3). -/
  | noAnswer
  deriving DecidableEq, Repr

/-- A view (R201): where its scans start, the scan under way or last completed, the labels it shows, which are the
records of a complete scan of its own, and the walk that shows lines. -/
structure View where
  policy : ScanPolicy
  scanFrom : Nat
  scan : DriverState
  labels : List JumpCallRecord
  display : DriverState
  phase : Phase
  deriving DecidableEq, Repr

/-- A view on a port: it scans `[scanFrom, scanTo)`, the address space of interest (R200), and shows `[start, stop)`
(R203), both within the buffer. A view is restarted by starting it again (R202). -/
def View.start? (policy : ScanPolicy) (port bufLen scanFrom scanTo start stop : Nat) : Option View :=
  match driverStart? port bufLen scanFrom scanTo, driverStart? port bufLen start stop with
  | some c, some d =>
    some { policy := policy, scanFrom := scanFrom, scan := c, labels := [], display := d, phase := .scanning }
  | _, _ => none

/-- The scan of a view at its start: at `scanFrom`, with no record (R200: "repeated scans from the start"). -/
def View.scanStart (v : View) : DriverState := driverStart v.scan.port v.scan.bufLen v.scanFrom v.scan.endAddr

/-- After a line: go on, or scan anew (R200). -/
def View.afterLine (v : View) : View :=
  match v.policy with
  | .preScan => v
  | .rescan => { v with scan := v.scanStart, phase := .scanning }

/-- The next driver step of a view. A scan that ends gives the view its labels, an immutable snapshot of its own
records (R201). -/
def View.turn (env : Environment) (r : Reads) (s : State) (v : View) : State × View :=
  match v.phase with
  | .scanning =>
    match driverStep env r [] s v.scan with
    | .running s' c => (s', { v with scan := c })
    | .done s' c => (s', { v with scan := c, labels := c.records, phase := .displaying })
    | .fault rc s' c => (s', { v with scan := c, phase := .faulted rc })
    | .noAnswer => (s, { v with phase := .noAnswer })
  | .displaying =>
    match driverStep env r v.labels s v.display with
    | .running s' d => (s', { v with display := d }.afterLine)
    | .done s' d => (s', { v with display := d, phase := .finished })
    | .fault rc s' d => (s', { v with display := d, phase := .faulted rc })
    | .noAnswer => (s, { v with phase := .noAnswer })
  | .finished => (s, v)
  | .faulted _ => (s, v)
  | .noAnswer => (s, v)

/-- One block and the views that share it (R201, R235). -/
structure World where
  block : State
  views : List View
  deriving DecidableEq, Repr

/-- What happens next around the block: a view takes a step, or any user puts an event on a port. -/
inductive Action where
  | view (i : Nat) (r : Reads)
  | event (e : Event)

/-- One action; `none` where there is no such view or no such port (log 3). -/
def World.act (env : Environment) (w : World) : Action → Option World
  | .view i r =>
    match w.views[i]? with
    | some v => some { block := (v.turn env r w.block).1, views := w.views.set i (v.turn env r w.block).2 }
    | none => none
  | .event e =>
    match w.block.issue e with
    | .next s => some { w with block := s }
    | .fault _ => none
    | .refused _ => none

/-- Actions one after the other, in the total order of R61. -/
def World.run (env : Environment) : World → List Action → Option World
  | w, [] => some w
  | w, a :: rest => (w.act env a).bind (fun w' => World.run env w' rest)

end Sys2Proof.Machine
end

