-- ==== Sys2Proof/Safety.lean ====
section
/-! DEFINITION. What the spec promises of every state of the block, in the terms the statements use: the widths and
shapes of the table, the status register and the responses; and when a decode run may start (R238); and what a view's labels are (R200). -/

namespace Sys2Proof.Machine

/-- A stored symbol names a slot below `N_SLOTS` (R22, R78). -/
def symFits (nSlots : Nat) : Symbol → Bool
  | .l0 => true
  | .l1 => true
  | .field c => c < nSlots

/-- A registered entry holds what REGISTER wrote (R22, R74, R75): a legal length, its own specificity, slots
and identifiers within their widths. -/
abbrev Entry.Wf (cfg : Config) (e : Entry) : Prop :=
  e.nsym ∈ patLengths ∧ e.sym.length = e.nsym ∧ e.spec = specificity e.sym ∧
  (∀ x ∈ e.sym, symFits cfg.nSlots x = true) ∧ e.mid < 2 ^ cfg.midW ∧ e.tag < 2 ^ cfg.tagW

/-- A response fits the widths of R82, and its lookup fields are 0 unless it is a hit, whose absent letters have
value 0 (R82, R136). -/
abbrev Resp.Wf (cfg : Config) (r : Resp) : Prop :=
  r.tidx < 2 ^ cfg.tidxW ∧ r.mid < 2 ^ cfg.midW ∧ r.tag < 2 ^ cfg.tagW ∧ r.len ∈ [0, 2, 4, 6] ∧
  r.consume ∈ [0, 2, 4, 6] ∧ r.spec ≤ 48 ∧ r.fmask < 2 ^ cfg.nSlots ∧ r.fval.length = cfg.nSlots ∧
  r.status &&& 0xF8#8 = 0 ∧ r.count < 2 ^ cfg.cntW ∧
  (r.hit = true → r.rc = .ok ∧ r.len ∈ [2, 4, 6] ∧ r.consume = r.len) ∧
  (r.hit = false → r.mid = 0 ∧ r.tag = 0 ∧ r.len = 0 ∧ r.spec = 0 ∧ r.fmask = 0) ∧
  (∀ c ∈ List.range cfg.nSlots, r.fmask.testBit c = false → r.fval.getD c 0 = 0)

/-- The invariant of the block: the parameters within the bounds of R8, the table of `N_TEMPLATES` entries with
`COUNT` of them registered (R22, R23) under distinct identifiers (R104), the reserved status bits 0 (R28), and
one well-formed `RESP` for each port (R31). -/
abbrev State.Wf (s : State) : Prop :=
  s.cfg.Wf ∧ s.tbl.length = s.cfg.nTemplates ∧ s.count ≤ s.cfg.nTemplates ∧
  (∀ e ∈ s.registered, e.Wf s.cfg) ∧ (s.registered.map Entry.mid).Nodup ∧ s.status &&& 0xF8#8 = 0 ∧
  s.resp.length = s.cfg.nLookupPorts ∧ ∀ r ∈ s.resp, r.Wf s.cfg

/-- The command completes (R260): it answers a next state, with a response on its port. How long it takes is no part of
the model, which has no time. -/
def Completes (i : Instr) (s : State) : Prop :=
  ∃ t r, exec i s = .next t ∧ t.port = s.port ∧ t.resp[s.port]? = some r

/-- A decode run may start: sealed, and no configuration fault (R238). -/
abbrev State.Ready (s : State) : Prop := s.sealed = true ∧ s.cfgFault = false

/-- The next event asks for a port the block has, or there is none (log 3). -/
abbrev State.PortsExist (s : State) : Prop :=
  match s.input with
  | [] => True
  | .rst p :: _ => p < s.cfg.nLookupPorts
  | .command p _ :: _ => p < s.cfg.nLookupPorts

/-- Another user's event leaves a decode run able to go on: it is a command other than REGISTER on a port the block has.
REGISTER would record a configuration fault, and `rst` would end phase SEALED (R238, R253). -/
def Event.Harmless (cfg : Config) : Event → Prop
  | .rst _ => False
  | .command p σ => p < cfg.nLookupPorts ∧ ∀ mid pat tag, decode cfg σ ≠ .register mid pat tag

/-- `d` is reached from `d0` by driver steps that go on, whatever the block's state and the buffer at each. -/
inductive ByDriver (env : Environment) (d0 : DriverState) : DriverState → Prop where
  | refl : ByDriver env d0 d0
  | tail (d d' : DriverState) (r : Reads) (s t : State) :
      ByDriver env d0 d → driverStep env r [] s d = .running t d' → ByDriver env d0 d'

/-- What a view's labels are (R200, R201, R203): its scan was made by its own driver steps from the start of the scan;
where it shows lines, that scan is complete and the labels are its records; both windows lie in the buffer. -/
def View.Sound (env : Environment) (v : View) : Prop :=
  ByDriver env v.scanStart v.scan ∧
  (v.phase = .displaying ∨ v.phase = .finished → v.scan.endAddr ≤ v.scan.addr ∧ v.labels = v.scan.records) ∧
  v.scan.endAddr ≤ v.scan.bufLen ∧ v.display.endAddr ≤ v.display.bufLen

end Sys2Proof.Machine
end

