-- ==== Sys2Proof/Certificates/Slice0/Obligations.lean ====
section
/-! DEFINITION. The statements for the provers, one definition each, and the few words they are written in. -/

namespace Sys2Proof.Stated

open Sys2Proof Sys2Proof.Machine

/-- A response with code `rc` and every other field 0, but `status` and `count` of the state `t` after the
command (R12, R31, R82). -/
def codeOnly (t : State) (rc : RespCode) : Resp :=
  { rc := rc, hit := false, tidx := 0, mid := 0, tag := 0, len := 0, consume := 0, spec := 0, fmask := 0,
    fval := List.replicate t.cfg.nSlots 0, status := t.status, count := t.count }

/-- The response of a lookup that found entry `k`, `e`, with fields `a`, in state `t` (R137, R163). -/
def hitOf (t : State) (k : Nat) (e : Entry) (a : Acc) : Resp :=
  { rc := .ok, hit := true, tidx := k, mid := e.mid, tag := e.tag, len := e.nsym / 8, consume := e.nsym / 8,
    spec := e.spec, fmask := a.present, fval := a.fval, status := t.status, count := t.count }

/-- `t` with the response of the port it serves set to `r`, and nothing else changed. -/
def answered (t : State) (r : Resp) : State := { t with resp := t.resp.set t.port r }

/-- No registered entry has identifier `mid`. -/
def fresh (s : State) (mid : Nat) : Prop := ∀ e ∈ s.registered, e.mid ≠ mid

/-- The next event is not a reset. -/
def noReset (s : State) : Prop := ∀ p rest, s.input ≠ .rst p :: rest

/-- The positions of the letter of slot `c` in a template, rising (R77). -/
def positions (c : Nat) (sym : List Symbol) : List Nat :=
  (List.range sym.length).filter (fun i => sym[i]? == some (.field c))

/-- `sum over t = 1..m of b(i_t) << (m - t)` over the positions listed (R132). -/
def weightedSum (w : Window) : List Nat → Nat
  | [] => 0
  | i :: is => (windowBit w i).toNat * 2 ^ is.length + weightedSum w is

/-- The symbol with its field letter forgotten: a literal, or `none` for any field. -/
def literalPart : Symbol → Option Bool
  | .l0 => some false
  | .l1 => some true
  | .field _ => none

/-- `k1` comes before `k2` in the priority order (R160). -/
def before (s : State) (k1 k2 : Nat) : Prop :=
  s.specAt k2 < s.specAt k1 ∨ (s.specAt k1 = s.specAt k2 ∧ k1 < k2)

/-- Entry `k` is registered and matches the window (R130). -/
def matchesAt (s : State) (w : Window) (n k : Nat) : Prop := ∃ e a, s.matchAt w n k = some (k, e, a)

/-- A lookup command: MATCH or RESOLVE. -/
def isLookup : Instr → Prop
  | .matchTemplate _ _ _ => True
  | .resolve _ _ => True
  | .nop => False
  | .register _ _ _ => False
  | .supersede _ _ => False
  | .sealTable => False
  | .reserved110 => False
  | .reserved111 => False

/-- `t` is reached from `s` by executing lookup commands, one after the other. -/
inductive ByLookups : State → State → Prop where
  | refl (s : State) : ByLookups s s
  | tail (s t u : State) (i : Instr) : ByLookups s t → isLookup i → exec i t = .next u → ByLookups s u

/-- The response codes the rules allow a command (R221, R227). -/
def allowedCodes : Instr → List RespCode
  | .nop => [.ok]
  | .register _ _ _ => [.wrongPhase, .malformedTemplate, .duplicateMnemonic, .tableFull, .ok]
  | .supersede _ _ => [.supersedeTargetMissing, .ok]
  | .sealTable => [.wrongPhase, .ok]
  | .matchTemplate _ _ _ => [.wrongPhase, .configFaulted, .badIndex, .noMatch, .ok]
  | .resolve _ _ => [.wrongPhase, .configFaulted, .noMatch, .ok]
  | .reserved110 => [.illegalCommand]
  | .reserved111 => [.illegalCommand]

/-- The two states differ at most in table entries that are not registered (R37). -/
def sameButUnregistered (s t : State) : Prop :=
  s.cfg = t.cfg ∧ s.count = t.count ∧ s.status = t.status ∧ s.resp = t.resp ∧ s.port = t.port ∧
  s.input = t.input ∧ s.registered = t.registered ∧ s.tbl.length = t.tbl.length

/-- How many driver steps a list of turns holds. -/
def stepsOf : List Turn → Nat
  | [] => 0
  | .mine _ :: rest => stepsOf rest + 1
  | .other _ :: rest => stepsOf rest

/-- What is fixed after SEAL: everything of the registered entries but their tags (R38). -/
def patternsOf (s : State) : List (Nat × Nat × Nat × List Symbol) :=
  s.registered.map (fun e => (e.mid, e.nsym, e.spec, e.sym))

/-- The REGISTER events of a list of templates (identifier, pattern, tag) on port `p`. -/
def registers (p : Nat) (ts : List (Nat × PatStr × Nat)) : List Event :=
  ts.map (fun x => .command p (encode (.register x.1 x.2.1 x.2.2)))

/-- `x` is the label of address `a` (R194, R196): with the supplied name and comment where the naming collaborator gives
one, else with the synthesized name and no comment (log 9). -/
def isLabelOf (env : Environment) (a : Nat) (x : LabelEntry) : Prop :=
  x.address = a ∧ (∀ name comment, env.nameFor a = some (name, comment) → x.name = name ∧ x.comment = comment) ∧
  (env.nameFor a = none → x.name = env.synthName a ∧ x.comment = none)

/-- The event is no reset and supersedes another identifier than `mid`, or none. -/
def leavesTag (cfg : Config) (mid : Nat) : Event → Prop
  | .rst _ => False
  | .command _ σ => ∀ tag, decode cfg σ ≠ .supersede mid tag

end Sys2Proof.Stated

open Sys2Proof Sys2Proof.Machine Sys2Proof.Stated

/-! ## Encoding and the step -/

/-- R80, R89: decoding the signals of a command gives the command, with every operand its signal can carry. -/
def Obligations.DecodeOfEncodeIsTheCommand : Prop :=
  ∀ (cfg : Config) (i : Instr), i.wellFormed cfg = true → decode cfg (encode i) = i

/-- Every value of the signals decodes to a command whose operands fit the port. This is the model's choice of log 6
(DEDUCED from the widths of R79): the decoder reduces each operand to the wires of its signal, and takes an `arg_pat`
lane that the signals do not list as 0. -/
def Obligations.DecodedCommandsFitThePort : Prop :=
  ∀ (cfg : Config) (σ : Signals), (decode cfg σ).wellFormed cfg = true

/-- R79: "Signals a command does not use are ignored by it." Two settings of the signals with the same code, equal
on the signals R81 gives that command, decode alike; of the pattern, only `arg_pat[0 .. arg_pat_len-1]` counts. -/
def Obligations.UnusedSignalsAreIgnored : Prop :=
  ∀ (cfg : Config) (σ τ : Signals), σ.cmd = τ.cmd →
    ((σ.cmd = 0b001#3 ∨ σ.cmd = 0b010#3) → σ.argMid = τ.argMid ∧ σ.argTag = τ.argTag) →
    (σ.cmd = 0b001#3 → σ.argPatLen = τ.argPatLen ∧
      ∀ j, j < σ.argPatLen → j < cfg.patMaxChars → σ.argPat[j]? = τ.argPat[j]?) →
    (σ.cmd = 0b100#3 → σ.argTidx = τ.argTidx) →
    ((σ.cmd = 0b100#3 ∨ σ.cmd = 0b101#3) → σ.window = τ.window ∧ σ.avail = τ.avail) →
    decode cfg σ = decode cfg τ

/-- The codes of R80, on signals written out: each row of the table decodes to its command. -/
def Obligations.CommandCodesDecodeByTable : Prop :=
  decode Config.vectors { cmd := 0b000#3 } = .nop ∧
  decode Config.vectors { cmd := 0b001#3, argMid := 3, argPat := [0x30#8, 0x72#8], argPatLen := 2, argTag := 5 } =
    .register 3 { len := 2, chars := [0x30#8, 0x72#8] } 5 ∧
  decode Config.vectors { cmd := 0b010#3, argMid := 3, argTag := 0x83 } = .supersede 3 0x83 ∧
  decode Config.vectors { cmd := 0b011#3 } = .sealTable ∧
  decode Config.vectors { cmd := 0b100#3, argTidx := 2, window := ⟨0x5F, 0x1F, 0, 0, 0, 0⟩, avail := 2 } =
    .matchTemplate 2 ⟨0x5F, 0x1F, 0, 0, 0, 0⟩ 2 ∧
  decode Config.vectors { cmd := 0b101#3, window := ⟨0x0C, 0x94, 0x34, 0x12, 0, 0⟩, avail := 4 } =
    .resolve ⟨0x0C, 0x94, 0x34, 0x12, 0, 0⟩ 4 ∧
  decode Config.vectors { cmd := 0b110#3 } = .reserved110 ∧ decode Config.vectors { cmd := 0b111#3 } = .reserved111

/-- A step serves the next command of the environment's order on its port: it is `exec` of the decoded command,
in the state with that event taken off the list and its port served (R61; the list and the port are the model's
own, logs 2 and 3). -/
def Obligations.StepExecutesTheDecodedCommand : Prop :=
  ∀ (s : State) (p : Nat) (σ : Signals) (rest : List Event) (i : Instr),
    s.input = .command p σ :: rest → p < s.cfg.nLookupPorts → decode s.cfg σ = i →
    step s = exec i { s with port := p, input := rest }

/-- R237: between commands the block holds its state unchanged. With nothing issued a step changes nothing (that
a step without an event exists is the model's choice, log 2). -/
def Obligations.IdleStepHoldsTheState : Prop :=
  ∀ s : State, s.input = [] → step s = .next s

/-- The model's choice of log 3: an event on a port the configuration does not have faults. -/
def Obligations.EventOnAbsentPortFaults : Prop :=
  ∀ (s : State) (p : Nat) (σ : Signals) (rest : List Event), s.cfg.nLookupPorts ≤ p →
    (s.input = .command p σ :: rest ∨ s.input = .rst p :: rest) → step s = .fault .noSuchPort

/-- R260, R59, R220: each issued command completes: it answers a next state, with a response on its port; no byte
pattern and no command stops the block. So does every step whose event names a port the block has. -/
def Obligations.EveryCommandCompletes : Prop :=
  (∀ (i : Instr) (s : State), s.port < s.resp.length → Completes i s) ∧
  ∀ s : State, s.PortsExist → ∃ t, step s = .next t

/-! ## Reset -/

/-- R33: after reset the table is empty, the phase is BUILD, no fault is recorded, `ORDER` is empty and every field
of every `RESP` is 0, for all parameters; every match attempt starts with `ACC` and `PRESENT` all 0. -/
def Obligations.ResetStateIsTheSpecs : Prop :=
  State.reset = State.initial State.reset.cfg ∧
  (∀ cfg : Config,
    (State.initial cfg).count = 0 ∧ (State.initial cfg).status = 0x00#8 ∧
    (State.initial cfg).sealed = false ∧ (State.initial cfg).cfgFault = false ∧
    (State.initial cfg).supersedeMiss = false ∧ (State.initial cfg).order = [] ∧
    (State.initial cfg).tbl.length = cfg.nTemplates ∧ (State.initial cfg).resp.length = cfg.nLookupPorts ∧
    ∀ p, p < cfg.nLookupPorts → ∃ r, (State.initial cfg).resp[p]? = some r ∧ r.rc.code = 0x0#4 ∧
      r = codeOnly (State.initial cfg) .ok ∧ r.status = 0x00#8 ∧ r.count = 0) ∧
  ∀ (nSlots : Nat) (e : Entry) (w : Window) (n : Nat), e.nsym / 8 ≤ n →
    matchEntry nSlots e w n = matchSyms w 0 e.sym { fval := List.replicate nSlots 0, present := 0 }

/-- R250, R251: `rst` on any port empties the table, clears `STATUS` and zeroes every port's `RESP` (that it comes as an
event of a list, which stays, is the model's: logs 2 and 4). -/
def Obligations.RstRestoresTheResetState : Prop :=
  ∀ (s : State) (p : Nat) (rest : List Event), s.input = .rst p :: rest → p < s.cfg.nLookupPorts →
    ∃ t, step s = .next t ∧ t.cfg = s.cfg ∧ t.input = rest ∧ t.count = 0 ∧ t.registered = [] ∧ t.status = 0x00#8 ∧
      t.resp = List.replicate s.cfg.nLookupPorts (codeOnly (State.initial s.cfg) .ok)

/-- R25, R230, R250: no step but a reset clears `SEALED`, `CFG_FAULT` or `SUPERSEDE_MISS` (the event list that tells a
reset from a command is the model's, log 2). -/
def Obligations.OnlyResetClearsStatusBits : Prop :=
  ∀ s t : State, step s = .next t → noReset s →
    (s.sealed = true → t.sealed = true) ∧ (s.cfgFault = true → t.cfgFault = true) ∧
    (s.supersedeMiss = true → t.supersedeMiss = true)

/-- R85, R28: `rc` is never 0xA to 0xF, symbol kind `11` is never stored, and `STATUS[7:3]` stays 0. -/
def Obligations.ReservedValuesNeverAppear : Prop :=
  (∀ rc : RespCode, rc.code.toNat ≤ 9) ∧ (∀ x : Symbol, (symBits x).extractLsb' 6 2 ≠ 0b11#2) ∧
  State.reset.status.extractLsb' 3 5 = 0#5 ∧
  ∀ s t : State, s.status.extractLsb' 3 5 = 0#5 → step s = .next t → t.status.extractLsb' 3 5 = 0#5

/-! ## The invariant -/

/-- The state right after reset meets the invariant, for all parameters within R8 (the parameters of `State.reset` and
what unregistered entries hold are the model's choices, logs 1 and 5). -/
def Obligations.ResetStateIsWellFormed : Prop :=
  State.reset.Wf ∧ ∀ cfg : Config, cfg.Wf → (State.initial cfg).Wf

/-- Every step keeps the invariant: widths (R9, R22, R82), table and count (R22, R23), distinct identifiers (R104),
reserved status bits (R28), one `RESP` for each port (R31). -/
def Obligations.EveryStepKeepsWellFormedness : Prop :=
  ∀ s t : State, s.Wf → step s = .next t → t.Wf

/-- R104: the identifiers of the registered entries stay pairwise distinct. -/
def Obligations.IdentifiersStayDistinct : Prop :=
  (∀ cfg : Config, ((State.initial cfg).registered.map Entry.mid).Nodup) ∧
  ∀ s t : State, (s.registered.map Entry.mid).Nodup → step s = .next t → (t.registered.map Entry.mid).Nodup

/-! ## Configuration commands -/

/-- R101: code `000` is NOP; it responds `OK` and writes `RESP` only. -/
def Obligations.NopRespondsOk : Prop :=
  (∀ (cfg : Config) (σ : Signals), σ.cmd = 0b000#3 → decode cfg σ = .nop) ∧
  ∀ s : State, exec .nop s = .next (answered s (codeOnly s .ok))

/-- R109: codes `110` and `111` are the reserved ones; they respond `ILLEGAL_COMMAND` and write `RESP` only. -/
def Obligations.ReservedCodesRespondIllegalCommand : Prop :=
  (∀ (cfg : Config) (σ : Signals), (σ.cmd = 0b110#3 → decode cfg σ = .reserved110) ∧
    (σ.cmd = 0b111#3 → decode cfg σ = .reserved111)) ∧
  ∀ s : State, exec .reserved110 s = .next (answered s (codeOnly s .illegalCommand)) ∧
    exec .reserved111 s = .next (answered s (codeOnly s .illegalCommand))

/-- R102: REGISTER, its five outcomes in the order of R227. On `OK` the entry goes to index `COUNT`, `COUNT` grows by
one and `tidx` is the index written; every rejection sets `CFG_FAULT` and leaves the table. Its code is `001`. -/
def Obligations.RegisterInsertsOrRejects : Prop :=
  (∀ (cfg : Config) (σ : Signals), σ.cmd = 0b001#3 →
    decode cfg σ = .register (decodeMid cfg σ) (decodePat cfg σ) (decodeTag cfg σ)) ∧
  ∀ (s : State) (mid tag : Nat) (p : PatStr),
    (∀ c, s.sealed = false → compile s.cfg p = some c → fresh s mid → s.count < s.cfg.nTemplates →
      ∃ t, t = { s with
            tbl := s.tbl.set s.count { mid := mid, tag := tag, nsym := c.nsym, spec := c.spec, sym := c.sym }
            count := s.count + 1 } ∧
        exec (.register mid p tag) s = .next (answered t { codeOnly t .ok with tidx := s.count })) ∧
    (∃ t, t = { s with status := s.status ||| 0x02#8 } ∧
      (s.sealed = true → exec (.register mid p tag) s = .next (answered t (codeOnly t .wrongPhase))) ∧
      (s.sealed = false → compile s.cfg p = none →
        exec (.register mid p tag) s = .next (answered t (codeOnly t .malformedTemplate))) ∧
      (s.sealed = false → (compile s.cfg p).isSome → ¬ fresh s mid →
        exec (.register mid p tag) s = .next (answered t (codeOnly t .duplicateMnemonic))) ∧
      (s.sealed = false → (compile s.cfg p).isSome → fresh s mid → s.count = s.cfg.nTemplates →
        exec (.register mid p tag) s = .next (answered t (codeOnly t .tableFull))))

/-- R107: SUPERSEDE writes the tag of the registered entry with that identifier and responds with its index; where
there is none it sets `SUPERSEDE_MISS`. In every phase and with any status. Its code is `010`. -/
def Obligations.SupersedeRetagsOrReportsMiss : Prop :=
  (∀ (cfg : Config) (σ : Signals), σ.cmd = 0b010#3 → decode cfg σ = .supersede (decodeMid cfg σ) (decodeTag cfg σ)) ∧
  ∀ (s : State) (mid tag : Nat), (s.registered.map Entry.mid).Nodup →
    (∀ k e, k < s.count → s.tbl[k]? = some e → e.mid = mid →
      ∃ t, t = { s with tbl := s.tbl.set k { e with tag := tag } } ∧
        exec (.supersede mid tag) s = .next (answered t { codeOnly t .ok with tidx := k })) ∧
    (fresh s mid →
      ∃ t, t = { s with status := s.status ||| 0x04#8 } ∧
        exec (.supersede mid tag) s = .next (answered t (codeOnly t .supersedeTargetMissing)))

/-- R107: the next lookup after SUPERSEDE, RESOLVE's resolver or MATCH's test of any entry, returns the new tag, and
finds the same entry with the same fields. -/
def Obligations.LookupAfterSupersedeSeesNewTag : Prop :=
  ∀ (s t : State) (mid tag k : Nat) (e : Entry), (s.registered.map Entry.mid).Nodup → k < s.count →
    s.tbl[k]? = some e → e.mid = mid → exec (.supersede mid tag) s = .next t →
    (∀ w n, t.resolve? w n =
      (s.resolve? w n).map (fun x => (x.1, if x.1 = k then { x.2.1 with tag := tag } else x.2.1, x.2.2))) ∧
    ∀ w n j, t.matchAt w n j =
      (s.matchAt w n j).map (fun x => (x.1, if x.1 = k then { x.2.1 with tag := tag } else x.2.1, x.2.2))

/-- R108: SEAL, code `011`, ends the build phase; a second SEAL responds `WRONG_PHASE` and changes nothing. -/
def Obligations.SealEndsTheBuildPhase : Prop :=
  (∀ (cfg : Config) (σ : Signals), σ.cmd = 0b011#3 → decode cfg σ = .sealTable) ∧
  ∀ s : State,
    (s.sealed = false → ∃ t, t = { s with status := s.status ||| 0x01#8 } ∧ t.sealed = true ∧
      exec .sealTable s = .next (answered t (codeOnly t .ok))) ∧
    (s.sealed = true → exec .sealTable s = .next (answered s (codeOnly s .wrongPhase)))

/-- R254: where the reserved bits are 0, the status that SEAL shows is 0x01, or 0x05 after a missed SUPERSEDE, exactly
when no configuration fault is recorded; its count is `COUNT`. -/
def Obligations.SealStatusIsTheBootCheck : Prop :=
  ∀ (s t : State) (r : Resp), s.status &&& 0xF8#8 = 0 → s.sealed = false → exec .sealTable s = .next t →
    t.resp[s.port]? = some r →
    (s.cfgFault = false ∧ s.supersedeMiss = false ↔ r.status = 0x01#8) ∧
    (s.cfgFault = false ∧ s.supersedeMiss = true ↔ r.status = 0x05#8) ∧
    (s.cfgFault = true ↔ r.status.getLsbD 1 = true) ∧ r.count = s.count

/-- R253: from reset, with any parameters, REGISTERs of templates that compile under distinct identifiers, no more than
the table holds, and then SEAL, on one port, leave the block serving lookups on exactly those templates (the event
list they stand in is the model's, log 2). -/
def Obligations.BootSequenceMakesTheTableReady : Prop :=
  ∀ (cfg : Config) (p : Nat) (ts : List (Nat × PatStr × Nat)), cfg.Wf → p < cfg.nLookupPorts →
    ts.length ≤ cfg.nTemplates → (ts.map (fun x => x.1)).Nodup →
    (∀ x ∈ ts, (Instr.register x.1 x.2.1 x.2.2).wellFormed cfg = true ∧ (compile cfg x.2.1).isSome) →
    ∃ t, Sys2Proof.core.run (ts.length + 1)
        { State.initial cfg with input := registers p ts ++ [.command p (encode .sealTable)] } = .next t ∧
      t.Ready ∧ t.status = 0x01#8 ∧ t.count = ts.length ∧ t.input = [] ∧
      t.registered.map (fun e => (e.mid, e.tag, some ({ nsym := e.nsym, spec := e.spec, sym := e.sym } : Compiled))) =
        ts.map (fun x => (x.1, x.2.2, compile cfg x.2.1))

/-- R23, R38: no step but a reset lowers `COUNT` or changes the identifier or pattern of a registered entry; only
SUPERSEDE changes its tag. -/
def Obligations.PatternsAreImmutable : Prop :=
  ∀ (s t : State) (k : Nat) (e : Entry), noReset s → step s = .next t → k < s.count → s.tbl[k]? = some e →
    s.count ≤ t.count ∧ ∃ e', t.tbl[k]? = some e' ∧ e'.mid = e.mid ∧ e'.nsym = e.nsym ∧ e'.spec = e.spec ∧
      e'.sym = e.sym ∧ (e'.tag = e.tag ∨
        ∃ p σ rest tag, s.input = .command p σ :: rest ∧ decode s.cfg σ = .supersede e.mid tag ∧ e'.tag = tag)

/-- R106, R30: in phase SEALED no step but a reset changes `COUNT`, any pattern or `ORDER`, and a REGISTER responds
`WRONG_PHASE` and writes only `CFG_FAULT` and `RESP`. -/
def Obligations.SealedTableIsFixed : Prop :=
  (∀ s t : State, s.sealed = true → noReset s → step s = .next t →
    t.sealed = true ∧ t.count = s.count ∧ t.order = s.order ∧
    t.tbl.map (fun e => (e.mid, e.nsym, e.spec, e.sym)) = s.tbl.map (fun e => (e.mid, e.nsym, e.spec, e.sym))) ∧
  ∀ (s : State) (mid tag : Nat) (p : PatStr), s.sealed = true →
    ∃ t, t = { s with status := s.status ||| 0x02#8 } ∧
      exec (.register mid p tag) s = .next (answered t (codeOnly t .wrongPhase))

/-! ## Compiling a pattern -/

/-- R72: a pattern is malformed exactly when it holds a character that is no space, `0`, `1` or field letter, or has a
number of symbols other than 16, 32 or 48, or is longer than `PAT_MAX_CHARS`; before SEAL, REGISTER rejects it with
`MALFORMED_TEMPLATE`. -/
def Obligations.MalformedPatternsAreExactlyR72 : Prop :=
  (∀ (cfg : Config) (p : PatStr),
    compile cfg p = none ↔
      (∃ ch ∈ p.chars, ch ≠ 0x20#8 ∧ ch ≠ 0x30#8 ∧ ch ≠ 0x31#8 ∧ ch ∉ cfg.fieldAlphabet) ∨
      (p.chars.filter (fun ch => ch ≠ 0x20#8)).length ∉ [16, 32, 48] ∨ cfg.patMaxChars < p.len) ∧
  ∀ (s : State) (mid tag : Nat) (p : PatStr), s.sealed = false → compile s.cfg p = none →
    ∃ t, t = { s with status := s.status ||| 0x02#8 } ∧
      exec (.register mid p tag) s = .next (answered t (codeOnly t .malformedTemplate))

/-- R71, R75, R103: the compiled symbols are those of the non-space characters in order, `nsym` is their number, and
`spec` is the number of characters `0` and `1`. -/
def Obligations.CompiledTemplateSpellsThePattern : Prop :=
  ∀ (cfg : Config) (p : PatStr) (c : Compiled), compile cfg p = some c →
    c.nsym = (p.chars.filter (fun ch => ch ≠ 0x20#8)).length ∧
    c.spec = p.chars.countP (fun ch => ch = 0x30#8 ∨ ch = 0x31#8) ∧
    List.Forall₂ (fun ch x => (ch = 0x30#8 → x = .l0) ∧ (ch = 0x31#8 → x = .l1) ∧
        (ch ≠ 0x30#8 → ch ≠ 0x31#8 → ∃ k, cfg.slotOf ch = some k ∧ x = .field k))
      (p.chars.filter (fun ch => ch ≠ 0x20#8)) c.sym

/-- R70: spaces carry no meaning. Two strings the port can hold with the same symbols compile to the same template. -/
def Obligations.SpacesCarryNoMeaning : Prop :=
  ∀ (cfg : Config) (p q : PatStr), p.len ≤ cfg.patMaxChars → q.len ≤ cfg.patMaxChars →
    p.chars.filter (fun ch => ch ≠ 0x20#8) = q.chars.filter (fun ch => ch ≠ 0x20#8) →
    compile cfg p = compile cfg q

/-- R73: a letter's slot is its position in `FIELD_ALPHABET` in ascending code order; with the default alphabet
`A` to `Z` are 0 to 25 and `a` to `z` are 26 to 51. -/
def Obligations.SlotIsThePositionInTheAlphabet : Prop :=
  (∀ (cfg : Config) (ch : Byte) (k : Nat), cfg.Wf → (cfg.slotOf ch = some k ↔ cfg.fieldAlphabet[k]? = some ch)) ∧
  ∀ (cfg : Config) (j : Nat), cfg.fieldAlphabet = asciiLetters → j < 26 →
    cfg.slotOf (BitVec.ofNat 8 (0x41 + j)) = some j ∧ cfg.slotOf (BitVec.ofNat 8 (0x61 + j)) = some (26 + j)

/-! ## The bit matcher -/

/-- R53: symbol `16m + t` reads bit `15 - t` of the little-endian 16-bit word `m`. -/
def Obligations.SymbolsReadLittleEndianWords : Prop :=
  ∀ (w : Window) (m t : Nat), m < 3 → t < 16 →
    windowBit w (16 * m + t) =
      ((windowByte w (2 * m)).setWidth 16 ||| ((windowByte w (2 * m + 1)).setWidth 16 <<< 8)).getLsbD (15 - t)

/-- R131, R134: a template matches exactly when its byte length is at most `n` and every literal symbol equals its
window bit. -/
def Obligations.MatchIffFitsAndLiteralsAgree : Prop :=
  ∀ (nSlots : Nat) (e : Entry) (w : Window) (n : Nat),
    (matchEntry nSlots e w n).isSome = true ↔
      e.nsym / 8 ≤ n ∧ ∀ i, (e.sym[i]? = some .l0 → windowBit w i = false) ∧
        (e.sym[i]? = some .l1 → windowBit w i = true)

/-- R132: on a match, the value of a letter is the sum of its bits, first position most significant. -/
def Obligations.FieldValueIsMsbFirstSum : Prop :=
  ∀ (nSlots : Nat) (e : Entry) (w : Window) (n c : Nat) (a : Acc), e.sym.length ≤ 48 → c < nSlots →
    matchEntry nSlots e w n = some a →
    ∃ v, a.fval[c]? = some v ∧ v.toNat = weightedSum w (positions c e.sym)

/-- R133: on a match, bit `c` of the mask is 1 exactly when the letter of slot `c` occurs in the template. -/
def Obligations.PresentMaskMarksTheLetters : Prop :=
  ∀ (nSlots : Nat) (e : Entry) (w : Window) (n : Nat) (a : Acc), matchEntry nSlots e w n = some a →
    ∀ c, a.present.testBit c = true ↔ Symbol.field c ∈ e.sym

/-- R136: on a hit, a letter that does not occur has mask bit 0 and value 0. -/
def Obligations.AbsentLettersReadZero : Prop :=
  ∀ (nSlots : Nat) (e : Entry) (w : Window) (n c : Nat) (a : Acc), c < nSlots → matchEntry nSlots e w n = some a →
    Symbol.field c ∉ e.sym → a.present.testBit c = false ∧ a.fval[c]? = some 0

/-- R140: a field of width `m` has a value below `2^m`. -/
def Obligations.FieldValueFitsItsWidth : Prop :=
  ∀ (nSlots : Nat) (e : Entry) (w : Window) (n c : Nat) (a : Acc) (v : FieldVal), matchEntry nSlots e w n = some a →
    a.fval[c]? = some v → v.toNat < 2 ^ e.sym.count (.field c)

/-- R141, R56: the result depends on the first `L` window bytes alone, and not on how far `n` exceeds `L`. -/
def Obligations.MatchReadsOnlyItsOwnBytes : Prop :=
  ∀ (nSlots : Nat) (e : Entry) (w w' : Window) (n n' : Nat), e.nsym ∈ patLengths → e.sym.length = e.nsym →
    e.nsym / 8 ≤ n → e.nsym / 8 ≤ n' → (∀ j, j < e.nsym / 8 → windowByte w j = windowByte w' j) →
    matchEntry nSlots e w n = matchEntry nSlots e w' n'

/-- R138: a template without field symbols matches, with no field, exactly the windows that spell it. -/
def Obligations.LiteralTemplatesRoundTrip : Prop :=
  ∀ (nSlots : Nat) (e : Entry) (w : Window) (n : Nat), (∀ x ∈ e.sym, isLiteral x = true) →
    ((e.nsym / 8 ≤ n ∧ ∀ i x, e.sym[i]? = some x → literalPart x = some (windowBit w i)) →
      matchEntry nSlots e w n = some { fval := List.replicate nSlots 0, present := 0 }) ∧
    (¬ (e.nsym / 8 ≤ n ∧ ∀ i x, e.sym[i]? = some x → literalPart x = some (windowBit w i)) →
      matchEntry nSlots e w n = none)

/-- R137: MATCH, its five outcomes in the order of R227. It writes `RESP` only. Its code is `100`. -/
def Obligations.MatchAnswersForOneEntry : Prop :=
  (∀ (cfg : Config) (σ : Signals), σ.cmd = 0b100#3 →
    decode cfg σ = .matchTemplate (decodeTidx cfg σ) σ.window σ.avail) ∧
  ∀ (s : State) (k : Nat) (w : Window) (avail : BitVec 3),
    (s.sealed = false → exec (.matchTemplate k w avail) s = .next (answered s (codeOnly s .wrongPhase))) ∧
    (s.sealed = true → s.cfgFault = true →
      exec (.matchTemplate k w avail) s = .next (answered s (codeOnly s .configFaulted))) ∧
    (s.Ready → s.count ≤ k → exec (.matchTemplate k w avail) s = .next (answered s (codeOnly s .badIndex))) ∧
    (∀ e, s.Ready → k < s.count → s.tbl[k]? = some e →
      matchEntry s.cfg.nSlots e w (min avail.toNat 6) = none →
      exec (.matchTemplate k w avail) s = .next (answered s (codeOnly s .noMatch))) ∧
    (∀ e a, s.Ready → k < s.count → s.tbl[k]? = some e →
      matchEntry s.cfg.nSlots e w (min avail.toNat 6) = some a →
      exec (.matchTemplate k w avail) s = .next (answered s (hitOf s k e a)))

/-! ## The opcode resolver -/

/-- R160: `ORDER` lists the registered indices by descending specificity, lower index first among equals. -/
def Obligations.OrderSortsBySpecificity : Prop :=
  ∀ s : State, s.order.Perm (List.range s.count) ∧ s.order.Pairwise (before s)

/-- R162: resolving in `ORDER` is a priority encoder over the match lines: the matching entry of largest specificity,
and among those the smallest index. -/
def Obligations.ResolveIsAPriorityEncoder : Prop :=
  ∀ (s : State) (w : Window) (n : Nat),
    (s.resolve? w n = none ↔ ∀ k, k < s.count → ¬ matchesAt s w n k) ∧
    ∀ k e a, s.resolve? w n = some (k, e, a) ↔
      k < s.count ∧ s.matchAt w n k = some (k, e, a) ∧
      ∀ j, j < s.count → matchesAt s w n j → j ≠ k → before s k j

/-- R163, R164: RESOLVE, its four outcomes in the order of R227. A miss has `consume = 2`; it writes `RESP` only.
Its code is `101`. -/
def Obligations.ResolveAnswersWithTheFirstMatch : Prop :=
  (∀ (cfg : Config) (σ : Signals), σ.cmd = 0b101#3 → decode cfg σ = .resolve σ.window σ.avail) ∧
  ∀ (s : State) (w : Window) (avail : BitVec 3),
    (s.sealed = false → exec (.resolve w avail) s = .next (answered s (codeOnly s .wrongPhase))) ∧
    (s.sealed = true → s.cfgFault = true →
      exec (.resolve w avail) s = .next (answered s (codeOnly s .configFaulted))) ∧
    (s.Ready → s.resolve? w (min avail.toNat 6) = none →
      exec (.resolve w avail) s = .next (answered s { codeOnly s .noMatch with consume := 2 })) ∧
    (∀ k e a, s.Ready → s.resolve? w (min avail.toNat 6) = some (k, e, a) →
      exec (.resolve w avail) s = .next (answered s (hitOf s k e a)))

/-- R167: if RESOLVE returns entry `k`, no matching entry has a larger specificity, and a matching entry of equal
specificity has a larger index. -/
def Obligations.ResolveReturnsTheMostSpecific : Prop :=
  ∀ (s t : State) (w : Window) (avail : BitVec 3) (r : Resp), exec (.resolve w avail) s = .next t →
    t.resp[s.port]? = some r → s.port < s.resp.length → r.hit = true →
    r.tidx < s.count ∧ matchesAt s w (min avail.toNat 6) r.tidx ∧
    ∀ k, k < s.count → k ≠ r.tidx → matchesAt s w (min avail.toNat 6) k →
      s.specAt k ≤ s.specAt r.tidx ∧ (s.specAt k = s.specAt r.tidx → r.tidx < k)

/-- R168: an entry is never returned by RESOLVE when an entry before it in `ORDER` matches every window it matches; so
a later entry with the same literals at the same positions as an earlier one, whatever the letters, is never
returned. -/
def Obligations.ShadowedEntriesAreNeverReturned : Prop :=
  (∀ (s : State) (k1 k2 : Nat), k1 < s.count → k2 < s.count → before s k1 k2 →
    (∀ w n, matchesAt s w n k2 → matchesAt s w n k1) → ∀ w n e a, s.resolve? w n ≠ some (k2, e, a)) ∧
  ∀ (s : State) (k1 k2 : Nat) (e1 e2 : Entry), s.Wf → k1 < k2 → k2 < s.count → s.tbl[k1]? = some e1 →
    s.tbl[k2]? = some e2 → e1.sym.map literalPart = e2.sym.map literalPart →
    ∀ w n e a, s.resolve? w n ≠ some (k2, e, a)

/-- R166: the response of RESOLVE is a function of the window, of `n`, and of the registered table and the status;
repeating it, after any lookups, gives the same response. -/
def Obligations.ResolveIsDeterministicAndIdempotent : Prop :=
  (∀ (s t s' t' : State) (w : Window) (av av' : BitVec 3), s.cfg = t.cfg → s.count = t.count → s.status = t.status →
    s.registered = t.registered → min av.toNat 6 = min av'.toNat 6 → s.port < s.resp.length →
    t.port < t.resp.length → exec (.resolve w av) s = .next s' → exec (.resolve w av') t = .next t' →
    s'.resp[s.port]? = t'.resp[t.port]?) ∧
  ∀ (s t s' t' : State) (w : Window) (av : BitVec 3), exec (.resolve w av) s = .next s' → ByLookups s' t →
    exec (.resolve w av) t = .next t' → t'.resp[s.port]? = s'.resp[s.port]?

/-- R169, R164: a hit reports the length of the template returned, and consumes it: 2, 4 or 6 bytes. -/
def Obligations.HitReportsTheTemplateLength : Prop :=
  ∀ (s t : State) (w : Window) (avail : BitVec 3) (r : Resp) (e : Entry), s.Wf → exec (.resolve w avail) s = .next t →
    t.resp[s.port]? = some r → s.port < s.resp.length → s.Ready → r.hit = true → s.tbl[r.tidx]? = some e →
    r.len = e.sym.length / 8 ∧ r.consume = r.len ∧ (r.len = 2 ∨ r.len = 4 ∨ r.len = 6)

/-- R51: only the `min(avail, 6)` valid bytes matter to a lookup; `avail = 7` acts as 6, and with `avail` 0 or 1 every
template misses. -/
def Obligations.OnlyValidWindowBytesMatter : Prop :=
  (∀ (s : State) (w w' : Window) (av av' : BitVec 3) (k : Nat), s.Wf → min av.toNat 6 = min av'.toNat 6 →
    (∀ j, j < min av.toNat 6 → windowByte w j = windowByte w' j) →
    exec (.resolve w av) s = exec (.resolve w' av') s ∧
    exec (.matchTemplate k w av) s = exec (.matchTemplate k w' av') s) ∧
  (∀ (s : State) (w : Window) (k : Nat), exec (.resolve w 7#3) s = exec (.resolve w 6#3) s ∧
    exec (.matchTemplate k w 7#3) s = exec (.matchTemplate k w 6#3) s) ∧
  ∀ (s : State) (w : Window) (av : BitVec 3) (k : Nat), s.Wf → s.Ready → av.toNat < 2 → k < s.count →
    exec (.resolve w av) s = .next (answered s { codeOnly s .noMatch with consume := 2 }) ∧
    exec (.matchTemplate k w av) s = .next (answered s (codeOnly s .noMatch))

/-! ## All commands -/

/-- R31, R235: every command writes every field of the `RESP` of its port: what it shows does not depend on any earlier
response. Its `status` and `count` are `STATUS` and `COUNT` after the command. No other port's `RESP` changes. -/
def Obligations.ResponseGoesToTheServedPort : Prop :=
  ∀ (i : Instr) (s t : State), exec i s = .next t →
    t.port = s.port ∧ t.resp.length = s.resp.length ∧
    (∀ q, q ≠ s.port → t.resp[q]? = s.resp[q]?) ∧
    (s.port < s.resp.length → ∃ r, t.resp[s.port]? = some r ∧ r.status = t.status ∧ r.count = t.count ∧
      r.rc ∈ allowedCodes i) ∧
    ∀ old : List Resp, old.length = s.resp.length →
      ∃ t', exec i { s with resp := old } = .next t' ∧ t'.resp[s.port]? = t.resp[s.port]?

/-- R58: a lookup changes no block state except `RESP`. -/
def Obligations.LookupsWriteOnlyResp : Prop :=
  ∀ (i : Instr) (s t : State), isLookup i → exec i s = .next t → t = { s with resp := t.resp }

/-- R220, R221: an error response changes only the state listed for its code: `CFG_FAULT` for a rejected REGISTER,
`SUPERSEDE_MISS` for a missed SUPERSEDE, nothing for the others. -/
def Obligations.ErrorsArePrecise : Prop :=
  ∀ (i : Instr) (s t : State) (r : Resp), s.port < s.resp.length → exec i s = .next t →
    t.resp[s.port]? = some r → r.rc ≠ .ok →
    ((∃ mid p tag, i = .register mid p tag) ∧ t = { s with status := s.status ||| 0x02#8, resp := t.resp }) ∨
    (r.rc = .supersedeTargetMissing ∧ t = { s with status := s.status ||| 0x04#8, resp := t.resp }) ∨
    ((∀ mid p tag, i ≠ .register mid p tag) ∧ r.rc ≠ .supersedeTargetMissing ∧ t = { s with resp := t.resp })

/-- R37: entries that are not registered cannot be observed: two states that differ only in them take the same step, to
states that again differ only in them, with the same responses. -/
def Obligations.UnregisteredEntriesAreUnobservable : Prop :=
  ∀ s t s' : State, sameButUnregistered s t → step s = .next s' →
    ∃ t', step t = .next t' ∧ sameButUnregistered s' t'

/-! ## The environment: driver, tracker and views -/

/-- R199: a driver step that does not stop raises the address by the classified length (at least 1), by the length of
the instruction (2, 4 or 6), or by exactly 2. -/
def Obligations.DriverAlwaysAdvances : Prop :=
  ∀ (env : Environment) (r : Reads) (labels : List JumpCallRecord) (s t : State) (d d' : DriverState),
    s.Wf → driverStep env r labels s d = .running t d' →
    d.addr < d'.addr ∧
    (0 < dataLength env r d → d'.addr = d.addr + dataLength env r d) ∧
    (dataLength env r d = 0 → ∃ q, t.resp[d.port]? = some q ∧
      ((q.rc = .ok ∧ (q.len = 2 ∨ q.len = 4 ∨ q.len = 6) ∧ d'.addr = d.addr + q.len) ∨
       (q.rc = .noMatch ∧ d'.addr = d.addr + 2)))

/-- R198, R203: before the end, on code, the driver stops with a fault when RESOLVE answers `WRONG_PHASE` or
`CONFIG_FAULTED`, and only then; at the end it stops done. -/
def Obligations.DriverStopsOnConfigurationFaults : Prop :=
  ∀ (env : Environment) (r : Reads) (labels : List JumpCallRecord) (s : State) (d : DriverState),
    d.port < s.cfg.nLookupPorts → d.port < s.resp.length →
    (d.endAddr ≤ d.addr → driverStep env r labels s d = .done s d) ∧
    (d.addr < d.endAddr → dataLength env r d = 0 →
      (s.sealed = false → ∃ t, driverStep env r labels s d = .fault .wrongPhase t d) ∧
      (s.sealed = true → s.cfgFault = true → ∃ t, driverStep env r labels s d = .fault .configFaulted t d) ∧
      (s.Ready → ∃ t d', driverStep env r labels s d = .running t d'))

/-- R238, R199: a walk that starts sealed and without a configuration fault never faults, whatever other users do
between its steps short of REGISTER and `rst`; with one driver step more than there are bytes in its range (the one
that stops) it ends done, the block still ready and its patterns as before. Without other users it changes nothing of
the block but `RESP` (and the model's own note of the port, log 3). -/
def Obligations.ReadyWalkEndsDone : Prop :=
  ∀ (env : Environment) (labels : List JumpCallRecord) (turns : List Turn) (s : State) (d : DriverState),
    s.Wf → s.Ready → d.port < s.cfg.nLookupPorts → (∀ e, Turn.other e ∈ turns → e.Harmless s.cfg) →
    d.endAddr - d.addr < stepsOf turns →
    ∃ t d', driverWalk env labels turns s d = .done t d' ∧ d'.endAddr = d.endAddr ∧ d.endAddr ≤ d'.addr ∧
      t.Ready ∧ t.cfg = s.cfg ∧ t.count = s.count ∧ patternsOf t = patternsOf s ∧
      ((∀ e, Turn.other e ∉ turns) → t = { s with resp := t.resp, port := t.port })

/-- R194, R195: `references_to` gives the references of every record to the address, in scan order, a new record last
and none where there is no record; a label is present exactly when a record targets the address; the one reference
shown is the first of them. R196: the label has the supplied name, else the synthesized one; that a synthesized name
has no comment is read from R196 by inference (log 9). -/
def Obligations.LabelsReflectTheRecords : Prop :=
  ∀ (env : Environment) (rs : List JumpCallRecord) (a src dst kind : Nat),
    ((labelFor env rs a).isSome = true ↔ ∃ x ∈ rs, x.dst = a) ∧
    (∀ x, labelFor env rs a = some x → isLabelOf env a x) ∧
    referencesTo [] a = [] ∧
    referencesTo (recordJump rs src dst kind) a = referencesTo rs a ++ (if dst = a then [(src, kind)] else []) ∧
    firstReference rs a = (referencesTo rs a).head? ∧
    firstReference rs a = (rs.find? (fun x => x.dst = a)).map (fun x => (x.src, x.kind))

/-- R197, R190 to R193, R196: on code, a hit puts out the label line where the scan has a record to the address, with
the supplied name or else the synthesized one, then the decoded instruction at that address with the response's length
and index, the texts of the renderer its tag names, and its bytes, and appends a record exactly when the emitter finds
a target; a miss puts out a two-byte dump alone and records nothing; a data range puts out its
data line, without a command. The bytes shown are a read of the step's own (log 12); past the buffer they are any
value. That no label line stands before a dump or a data line, even at a referenced address, is the spec's choice D41,
not to be relied on (N20; log 9). -/
def Obligations.DriverEmitsRecordsOrDumps : Prop :=
  ∀ (env : Environment) (r : Reads) (labels : List JumpCallRecord) (s : State) (d : DriverState),
    d.addr < d.endAddr →
    (0 < dataLength env r d → ∃ raw, raw.length = dataLength env r d ∧
      (∀ j, j < dataLength env r d → raw[j]? = some (r.shown (d.addr + j))) ∧
      driverStep env r labels s d = .running s
        { d with addr := d.addr + dataLength env r d, output := d.output ++ [.data d.addr (dataLength env r d) raw] }) ∧
    ∀ t d', dataLength env r d = 0 → driverStep env r labels s d = .running t d' →
      ∃ q, t.resp[d.port]? = some q ∧ d'.endAddr = d.endAddr ∧
        (q.rc = .ok →
          (∃ i raw, i.address = d.addr ∧ i.byteLen = q.len ∧ i.tidx = q.tidx ∧
            i.mnemonic = (env.text q.tag q.fmask q.fval d.addr).1 ∧
            i.operands = (env.text q.tag q.fmask q.fval d.addr).2 ∧ raw.length = q.len ∧
            (∀ j, j < q.len → raw[j]? = some (r.shown (d.addr + j))) ∧
            ((∀ x ∈ labels, x.dst ≠ d.addr) → d'.output = d.output ++ [.instruction i raw]) ∧
            ((∃ x ∈ labels, x.dst = d.addr) → ∃ entry, isLabelOf env d.addr entry ∧
              d'.output = d.output ++ [.label entry (firstReference labels d.addr), .instruction i raw])) ∧
          (env.target q.mid q.tag q.fmask q.fval d.addr = none → d'.records = d.records) ∧
          (∀ x, env.target q.mid q.tag q.fmask q.fval d.addr = some x →
            d'.records = d.records ++ [{ src := d.addr, dst := x, kind := q.mid }])) ∧
        (q.rc ≠ .ok → q.rc = .noMatch ∧ d'.records = d.records ∧
          d'.output = d.output ++ [.dump d.addr (r.shown d.addr) (r.shown (d.addr + 1))])

/-- R203, R197: a walk is started with `END ≤ BUF_LEN` or not at all, and no step changes its end, its buffer length or
its port; a step on code issues one RESOLVE on its port, offering `min(6, BUF_LEN - addr)` bytes of the buffer at the
decode address and zero padding, and leaves the block as that RESOLVE does, whether it goes on or faults; and what the
classifier and the window would read at `BUF_LEN` or beyond changes nothing a step does. -/
def Obligations.DriverStaysInTheBuffer : Prop :=
  (∀ port bufLen start stop : Nat,
    (stop ≤ bufLen → driverStart? port bufLen start stop = some (driverStart port bufLen start stop)) ∧
    (bufLen < stop → driverStart? port bufLen start stop = none)) ∧
  (∀ (env : Environment) (r : Reads) (labels : List JumpCallRecord) (s t : State) (d d' : DriverState),
    driverStep env r labels s d = .running t d' → d'.endAddr = d.endAddr ∧ d'.bufLen = d.bufLen ∧ d'.port = d.port) ∧
  (∀ (r : Reads) (d : DriverState), ∃ w avail, driverResolve r d = .resolve w avail ∧
    avail.toNat = min 6 (d.bufLen - d.addr) ∧
    ∀ j, j < 6 → windowByte w j = if d.addr + j < d.bufLen then r.sampled (d.addr + j) else 0) ∧
  (∀ (env : Environment) (r : Reads) (labels : List JumpCallRecord) (s t : State) (d d' : DriverState),
    (driverStep env r labels s d = .running t d' → dataLength env r d = 0 →
      exec (driverResolve r d) { s with port := d.port } = .next t) ∧
    ∀ rc, driverStep env r labels s d = .fault rc t d' → exec (driverResolve r d) { s with port := d.port } = .next t) ∧
  ∀ (env : Environment) (r r' : Reads) (labels : List JumpCallRecord) (s : State) (d : DriverState),
    (∀ a, a < d.bufLen → r.sampled a = r'.sampled a ∧ r.classified a = r'.classified a) →
    (∀ a, r.shown a = r'.shown a) → driverStep env r labels s d = driverStep env r' labels s d

/-- R200, R201, R203: a view's labels are the records of a complete scan, made by its own driver steps from the start of
its scan range, and it shows lines only with them: what it has put out changes only while it displays, and then by one
driver step with those labels. Nothing else gives it labels, and no other view and no other user's command changes it.
What a view does changes nothing of the block but `RESP` (and the note of the port). The two scan policies and the turns
of the views are the model's, log 13. -/
def Obligations.LabelsComeFromTheViewsOwnCompleteScan : Prop :=
  (∀ (env : Environment) (policy : ScanPolicy) (port bufLen scanFrom scanTo start stop : Nat) (v : View),
    View.start? policy port bufLen scanFrom scanTo start stop = some v → v.Sound env) ∧
  (∀ (env : Environment) (w w' : World) (a : Action), (∀ v ∈ w.views, v.Sound env) → w.act env a = some w' →
    ∀ v ∈ w'.views, v.Sound env) ∧
  (∀ (env : Environment) (w w' : World) (i : Nat) (r : Reads) (v : View), w.views[i]? = some v →
    w.act env (.view i r) = some w' →
    ∃ v', w'.views[i]? = some v' ∧ (v.phase ≠ .displaying → v'.display = v.display) ∧
      (v.phase = .displaying →
        (∀ t d, driverStep env r v.labels w.block v.display = .running t d → w'.block = t ∧ v'.display = d) ∧
        (∀ t d, driverStep env r v.labels w.block v.display = .done t d →
          w'.block = t ∧ v'.display = v.display ∧ v'.phase = .finished) ∧
        (∀ rc t d, driverStep env r v.labels w.block v.display = .fault rc t d →
          w'.block = t ∧ v'.display = v.display ∧ v'.phase = .faulted rc) ∧
        (driverStep env r v.labels w.block v.display = .noAnswer → v'.display = v.display))) ∧
  ∀ (env : Environment) (w w' : World) (a : Action), w.act env a = some w' →
    (∀ i, (∀ r, a ≠ .view i r) → w'.views[i]? = w.views[i]?) ∧
    ((∀ e, a ≠ .event e) → w'.block = { w.block with resp := w'.block.resp, port := w'.block.port })

/-- R258, R107: a line shows the tag left by the SUPERSEDEs before its lookup in the command order: once any user of any
port has replaced the tag of entry `k` between two steps of a walk, every later hit of the walk on that entry returns
and renders the new one, with any driver steps and any commands of other users between them, short of a reset and of
another SUPERSEDE of that identifier. (That other users' commands fall between driver steps is the model's, log 13.) -/
def Obligations.ShownTagsFollowTheCommandOrder : Prop :=
  ∀ (env : Environment) (labels : List JumpCallRecord) (r : Reads) (s t u : State) (d d' d'' : DriverState)
    (between : List Turn) (q : Resp) (k : Nat) (e : Entry) (tag p : Nat) (σ : Signals),
    (s.registered.map Entry.mid).Nodup → k < s.count → s.tbl[k]? = some e → decode s.cfg σ = .supersede e.mid tag →
    (∀ ev, Turn.other ev ∈ between → leavesTag s.cfg e.mid ev) →
    driverWalk env labels (.other (.command p σ) :: between) s d = .running t d' →
    dataLength env r d' = 0 → driverStep env r labels t d' = .running u d'' →
    u.resp[d'.port]? = some q → q.rc = .ok → q.tidx = k →
    q.tag = tag ∧ q.mid = e.mid ∧ ∃ i raw, d''.output.getLast? = some (.instruction i raw) ∧ i.tidx = k ∧
      i.mnemonic = (env.text tag q.fmask q.fval d'.addr).1 ∧ i.operands = (env.text tag q.fmask q.fval d'.addr).2

/-- R221: the 4-bit values of the response codes. -/
def Obligations.ResponseCodesHaveTheTableValues : Prop :=
  RespCode.ok.code = 0x0#4 ∧ RespCode.noMatch.code = 0x1#4 ∧ RespCode.malformedTemplate.code = 0x2#4 ∧
  RespCode.supersedeTargetMissing.code = 0x3#4 ∧ RespCode.tableFull.code = 0x4#4 ∧
  RespCode.duplicateMnemonic.code = 0x5#4 ∧ RespCode.wrongPhase.code = 0x6#4 ∧ RespCode.badIndex.code = 0x7#4 ∧
  RespCode.configFaulted.code = 0x8#4 ∧ RespCode.illegalCommand.code = 0x9#4
end

