-- ==== Sys2Proof/Laws/State.lean ====
section
/-! SUPPORT. What each update of the state does to each field, once, so that no proof unfolds a record update. -/

namespace Sys2Proof.Machine

variable (s : State)

@[simp] theorem respond_cfg (r : Resp) : (s.respond r).cfg = s.cfg := rfl
@[simp] theorem respond_tbl (r : Resp) : (s.respond r).tbl = s.tbl := rfl
@[simp] theorem respond_count (r : Resp) : (s.respond r).count = s.count := rfl
@[simp] theorem respond_status (r : Resp) : (s.respond r).status = s.status := rfl
@[simp] theorem respond_resp (r : Resp) : (s.respond r).resp = s.resp.set s.port { r with status := s.status, count := s.count } := rfl
@[simp] theorem respond_port (r : Resp) : (s.respond r).port = s.port := rfl
@[simp] theorem respond_input (r : Resp) : (s.respond r).input = s.input := rfl

@[simp] theorem setSealed_cfg : s.setSealed.cfg = s.cfg := rfl
@[simp] theorem setSealed_tbl : s.setSealed.tbl = s.tbl := rfl
@[simp] theorem setSealed_count : s.setSealed.count = s.count := rfl
@[simp] theorem setSealed_status : s.setSealed.status = s.status ||| 0x01#8 := rfl
@[simp] theorem setSealed_resp : s.setSealed.resp = s.resp := rfl
@[simp] theorem setSealed_port : s.setSealed.port = s.port := rfl
@[simp] theorem setSealed_input : s.setSealed.input = s.input := rfl

@[simp] theorem setCfgFault_cfg : s.setCfgFault.cfg = s.cfg := rfl
@[simp] theorem setCfgFault_tbl : s.setCfgFault.tbl = s.tbl := rfl
@[simp] theorem setCfgFault_count : s.setCfgFault.count = s.count := rfl
@[simp] theorem setCfgFault_status : s.setCfgFault.status = s.status ||| 0x02#8 := rfl
@[simp] theorem setCfgFault_resp : s.setCfgFault.resp = s.resp := rfl
@[simp] theorem setCfgFault_port : s.setCfgFault.port = s.port := rfl
@[simp] theorem setCfgFault_input : s.setCfgFault.input = s.input := rfl

@[simp] theorem setSupersedeMiss_cfg : s.setSupersedeMiss.cfg = s.cfg := rfl
@[simp] theorem setSupersedeMiss_tbl : s.setSupersedeMiss.tbl = s.tbl := rfl
@[simp] theorem setSupersedeMiss_count : s.setSupersedeMiss.count = s.count := rfl
@[simp] theorem setSupersedeMiss_status : s.setSupersedeMiss.status = s.status ||| 0x04#8 := rfl
@[simp] theorem setSupersedeMiss_resp : s.setSupersedeMiss.resp = s.resp := rfl
@[simp] theorem setSupersedeMiss_port : s.setSupersedeMiss.port = s.port := rfl
@[simp] theorem setSupersedeMiss_input : s.setSupersedeMiss.input = s.input := rfl

@[simp] theorem reject_cfg (rc : RespCode) : (s.reject rc).cfg = s.cfg := rfl
@[simp] theorem reject_tbl (rc : RespCode) : (s.reject rc).tbl = s.tbl := rfl
@[simp] theorem reject_count (rc : RespCode) : (s.reject rc).count = s.count := rfl
@[simp] theorem reject_status (rc : RespCode) : (s.reject rc).status = s.status ||| 0x02#8 := rfl
@[simp] theorem reject_resp (rc : RespCode) : (s.reject rc).resp = s.resp.set s.port { s.blank rc with status := s.status ||| 0x02#8, count := s.count } := rfl
@[simp] theorem reject_port (rc : RespCode) : (s.reject rc).port = s.port := rfl
@[simp] theorem reject_input (rc : RespCode) : (s.reject rc).input = s.input := rfl

@[simp] theorem append_cfg (e : Entry) : (s.append e).cfg = s.cfg := rfl
@[simp] theorem append_tbl (e : Entry) : (s.append e).tbl = s.tbl.set s.count e := rfl
@[simp] theorem append_count (e : Entry) : (s.append e).count = s.count + 1 := rfl
@[simp] theorem append_status (e : Entry) : (s.append e).status = s.status := rfl
@[simp] theorem append_resp (e : Entry) : (s.append e).resp = s.resp := rfl
@[simp] theorem append_port (e : Entry) : (s.append e).port = s.port := rfl
@[simp] theorem append_input (e : Entry) : (s.append e).input = s.input := rfl

@[simp] theorem retag_cfg (k tag : Nat) : (s.retag k tag).cfg = s.cfg := rfl
@[simp] theorem retag_tbl (k tag : Nat) : (s.retag k tag).tbl = s.tbl.modify k (fun e => { e with tag := tag }) := rfl
@[simp] theorem retag_count (k tag : Nat) : (s.retag k tag).count = s.count := rfl
@[simp] theorem retag_status (k tag : Nat) : (s.retag k tag).status = s.status := rfl
@[simp] theorem retag_resp (k tag : Nat) : (s.retag k tag).resp = s.resp := rfl
@[simp] theorem retag_port (k tag : Nat) : (s.retag k tag).port = s.port := rfl
@[simp] theorem retag_input (k tag : Nat) : (s.retag k tag).input = s.input := rfl

@[simp] theorem resetNow_cfg : s.resetNow.cfg = s.cfg := rfl
@[simp] theorem resetNow_tbl : s.resetNow.tbl = List.replicate s.cfg.nTemplates Entry.blank := rfl
@[simp] theorem resetNow_count : s.resetNow.count = 0 := rfl
@[simp] theorem resetNow_status : s.resetNow.status = 0x00#8 := rfl
@[simp] theorem resetNow_resp : s.resetNow.resp = List.replicate s.cfg.nLookupPorts (Resp.zero s.cfg.nSlots .ok) := rfl
@[simp] theorem resetNow_port : s.resetNow.port = 0 := rfl
@[simp] theorem resetNow_input : s.resetNow.input = s.input := rfl

/-! The state right after reset. -/

variable (cfg : Config)

@[simp] theorem initial_cfg : (State.initial cfg).cfg = cfg := rfl
@[simp] theorem initial_tbl : (State.initial cfg).tbl = List.replicate cfg.nTemplates Entry.blank := rfl
@[simp] theorem initial_count : (State.initial cfg).count = 0 := rfl
@[simp] theorem initial_status : (State.initial cfg).status = 0x00#8 := rfl
@[simp] theorem initial_resp :
    (State.initial cfg).resp = List.replicate cfg.nLookupPorts (Resp.zero cfg.nSlots .ok) := rfl
@[simp] theorem initial_port : (State.initial cfg).port = 0 := rfl
@[simp] theorem initial_input : (State.initial cfg).input = [] := rfl

/-! The status bits under each update of `STATUS` (R25). -/

@[simp] theorem sealed_respond (r : Resp) : (s.respond r).sealed = s.sealed := rfl
@[simp] theorem cfgFault_respond (r : Resp) : (s.respond r).cfgFault = s.cfgFault := rfl
@[simp] theorem supersedeMiss_respond (r : Resp) : (s.respond r).supersedeMiss = s.supersedeMiss := rfl
@[simp] theorem sealed_append (e : Entry) : (s.append e).sealed = s.sealed := rfl
@[simp] theorem cfgFault_append (e : Entry) : (s.append e).cfgFault = s.cfgFault := rfl
@[simp] theorem supersedeMiss_append (e : Entry) : (s.append e).supersedeMiss = s.supersedeMiss := rfl
@[simp] theorem sealed_retag (k tag : Nat) : (s.retag k tag).sealed = s.sealed := rfl
@[simp] theorem cfgFault_retag (k tag : Nat) : (s.retag k tag).cfgFault = s.cfgFault := rfl
@[simp] theorem supersedeMiss_retag (k tag : Nat) : (s.retag k tag).supersedeMiss = s.supersedeMiss := rfl
@[simp] theorem sealed_setSealed : s.setSealed.sealed = true := by simp [State.sealed]
@[simp] theorem cfgFault_setSealed : s.setSealed.cfgFault = s.cfgFault := by simp [State.cfgFault]
@[simp] theorem supersedeMiss_setSealed : s.setSealed.supersedeMiss = s.supersedeMiss := by simp [State.supersedeMiss]
@[simp] theorem sealed_setCfgFault : s.setCfgFault.sealed = s.sealed := by simp [State.sealed]
@[simp] theorem cfgFault_setCfgFault : s.setCfgFault.cfgFault = true := by simp [State.cfgFault]
@[simp] theorem supersedeMiss_setCfgFault : s.setCfgFault.supersedeMiss = s.supersedeMiss := by
  simp [State.supersedeMiss]
@[simp] theorem sealed_setSupersedeMiss : s.setSupersedeMiss.sealed = s.sealed := by simp [State.sealed]
@[simp] theorem cfgFault_setSupersedeMiss : s.setSupersedeMiss.cfgFault = s.cfgFault := by simp [State.cfgFault]
@[simp] theorem supersedeMiss_setSupersedeMiss : s.setSupersedeMiss.supersedeMiss = true := by
  simp [State.supersedeMiss]

end Sys2Proof.Machine
end

