-- ==== Sys2Proof/Laws/Table.lean ====
section
/-! SUPPORT. What the operations on the Pattern Table and on pattern strings can answer, once for each. -/

namespace Sys2Proof.Machine

variable (s : State)

theorem entry?_eq_registered (k : Nat) : s.entry? k = s.registered[k]? := by
  simp [State.entry?, State.registered, List.getElem?_take]

theorem entry?_eq_some {k : Nat} {e : Entry} : s.entry? k = some e ↔ k < s.count ∧ s.tbl[k]? = some e := by
  simp [State.entry?]

theorem entry?_mem {k : Nat} {e : Entry} (h : s.entry? k = some e) : e ∈ s.registered :=
  List.mem_of_getElem? (entry?_eq_registered s k ▸ h)

theorem entry?_congr {s t : State} (h : s.registered = t.registered) (k : Nat) : s.entry? k = t.entry? k := by
  rw [entry?_eq_registered, entry?_eq_registered, h]

theorem findMid_eq_none {mid : Nat} : s.findMid mid = none ↔ ∀ e ∈ s.registered, e.mid ≠ mid := by
  simp [State.findMid]

/-- A found identifier is that of a registered entry. -/
theorem findMid_some {mid k : Nat} (h : s.findMid mid = some k) :
    ∃ e, s.entry? k = some e ∧ e.mid = mid := by
  obtain ⟨hk, hm, -⟩ := List.findIdx?_eq_some_iff_getElem.mp h
  exact ⟨s.registered[k], by rw [entry?_eq_registered]; exact List.getElem?_eq_getElem hk, by simpa using hm⟩

/-- Under distinct identifiers (R104) the entry found is the entry with that identifier. -/
theorem findMid_of_nodup {mid k : Nat} {e : Entry} (hn : (s.registered.map Entry.mid).Nodup)
    (he : s.entry? k = some e) (hm : e.mid = mid) : s.findMid mid = some k := by
  rw [entry?_eq_registered] at he
  obtain ⟨hk, rfl⟩ := List.getElem?_eq_some_iff.mp he
  refine List.findIdx?_eq_some_iff_getElem.mpr ⟨hk, by simpa using hm, fun j hj hc => ?_⟩
  have hjl : j < (s.registered.map Entry.mid).length := by simp; omega
  have := (List.Nodup.getElem_inj_iff hn (hi := hjl) (hj := by simpa using hk)).mp
    (by simpa [hm] using hc)
  omega

/-- What appending does to the registered entries, while the table has room (R102). -/
theorem registered_append (e : Entry) (h : s.count < s.tbl.length) :
    (s.append e).registered = s.registered ++ [e] := by
  simp only [State.registered, append_tbl, append_count]
  rw [List.take_add_one, List.take_set_of_le (Nat.le_refl _)]
  simp [h]

/-- What retagging does to the registered entries (R107). -/
theorem registered_retag (k tag : Nat) :
    (s.retag k tag).registered = s.registered.modify k (fun e => { e with tag := tag }) := by
  apply List.ext_getElem?
  intro i
  simp only [State.registered, retag_tbl, retag_count, List.getElem?_take, List.getElem?_modify]
  split <;> simp

theorem mids_retag (k tag : Nat) : (s.retag k tag).registered.map Entry.mid = s.registered.map Entry.mid := by
  rw [registered_retag]
  apply List.ext_getElem?
  intro i
  simp only [List.getElem?_map, List.getElem?_modify]
  split <;> simp [Function.comp_def]

/-! ## Pattern strings -/

/-- The only character that is skipped is the space (R71). -/
theorem symbolsOf_filter (cfg : Config) (l : List Byte) :
    symbolsOf cfg l = symbolsOf cfg (l.filter (fun ch => ch ≠ 0x20#8)) := by
  induction l with
  | nil => rfl
  | cons ch l ih =>
    by_cases h : ch = 0x20#8
    · simp [symbolsOf, h, ih]
    · simp [symbolsOf, h, ih]

theorem symbolOf_eq_none {cfg : Config} {ch : Byte} :
    symbolOf cfg ch = none ↔ ch ≠ 0x30#8 ∧ ch ≠ 0x31#8 ∧ ch ∉ cfg.fieldAlphabet := by
  simp only [symbolOf, Config.slotOf]
  split
  · simp_all
  · split
    · simp_all
    · split <;> simp_all

/-- A string has symbols exactly when each of its characters is in the grammar (R70). -/
theorem symbolsOf_eq_none {cfg : Config} {l : List Byte} :
    symbolsOf cfg l = none ↔ ∃ ch ∈ l, ch ≠ 0x20#8 ∧ symbolOf cfg ch = none := by
  induction l with
  | nil => simp [symbolsOf]
  | cons ch l ih =>
    by_cases h : ch = 0x20#8
    · simp [symbolsOf, h, ih]
    · cases hs : symbolOf cfg ch with
      | none => simp [symbolsOf, h, hs]
      | some x =>
        cases hl : symbolsOf cfg l with
        | none => simpa [symbolsOf, h, hs, hl] using ih.mp hl
        | some xs =>
          have := (not_congr ih).mp (by simp [hl])
          simp [symbolsOf, h, hs, hl]
          simpa using this

/-- The symbols of a string, character by character (R71). -/
theorem symbolsOf_some {cfg : Config} {l : List Byte} {xs : List Symbol} (h : symbolsOf cfg l = some xs) :
    List.Forall₂ (fun ch x => symbolOf cfg ch = some x) (l.filter (fun ch => ch ≠ 0x20#8)) xs := by
  induction l generalizing xs with
  | nil =>
    simp only [symbolsOf, Option.some.injEq] at h
    subst h
    exact List.Forall₂.nil
  | cons ch l ih =>
    by_cases hc : ch = 0x20#8
    · simp only [symbolsOf, hc, if_true] at h
      simpa [hc] using ih h
    · simp only [symbolsOf, hc, if_false] at h
      split at h
      · next x ys hx hy =>
        simp only [Option.some.injEq] at h
        subst h
        simpa [hc] using And.intro hx (by simpa using ih hy)
      · cases h

/-- What `Compile` answers when the pattern is not malformed (R103). -/
theorem compile_some {cfg : Config} {p : PatStr} {c : Compiled} (h : compile cfg p = some c) :
    p.len ≤ cfg.patMaxChars ∧ symbolsOf cfg p.chars = some c.sym ∧ c.nsym = c.sym.length ∧
      c.spec = specificity c.sym ∧ c.nsym ∈ patLengths := by
  unfold compile at h
  split at h
  · cases h
  · split at h
    · cases h
    · split at h
      · next hlen _ sym hs hm =>
        simp only [Option.some.injEq] at h
        subst h
        exact ⟨by omega, hs, rfl, rfl, hm⟩
      · cases h

/-- A slot is below `N_SLOTS` (R73). -/
theorem slotOf_lt {cfg : Config} {ch : Byte} {k : Nat} (h : cfg.slotOf ch = some k) : k < cfg.nSlots := by
  unfold Config.slotOf at h
  split at h
  · next hm =>
    simp only [Option.some.injEq] at h
    subst h
    refine lt_of_le_of_ne List.countP_le_length fun he => ?_
    simpa using List.countP_eq_length.mp he ch hm
  · cases h

end Sys2Proof.Machine
end

