-- ==== Sys2Proof/Laws/Matcher.lean ====
section
/-! SUPPORT. The walk of the Bit Matcher (R130), from any symbol index and any accumulator. -/

namespace Sys2Proof.Machine

/-- The accumulator after the walk has passed every symbol: each field bit pushed into its slot (R132). -/
def pushAll (w : Window) : Nat → List Symbol → Acc → Acc
  | _, [], a => a
  | i, .l0 :: rest, a => pushAll w (i + 1) rest a
  | i, .l1 :: rest, a => pushAll w (i + 1) rest a
  | i, .field c :: rest, a => pushAll w (i + 1) rest (a.push c (windowBit w i))

/-- Every literal from index `i` on equals its window bit (R131). -/
def litsAgree (w : Window) : Nat → List Symbol → Prop
  | _, [] => True
  | i, .l0 :: rest => windowBit w i = false ∧ litsAgree w (i + 1) rest
  | i, .l1 :: rest => windowBit w i = true ∧ litsAgree w (i + 1) rest
  | i, .field _ :: rest => litsAgree w (i + 1) rest

/-- The walk answers exactly when the literals agree, and then with every field bit pushed. -/
theorem matchSyms_eq_some {w : Window} {i : Nat} {l : List Symbol} {a b : Acc} :
    matchSyms w i l a = some b ↔ litsAgree w i l ∧ pushAll w i l a = b := by
  induction l generalizing i a with
  | nil => simp [matchSyms, litsAgree, pushAll]
  | cons x l ih => cases x <;> cases hb : windowBit w i <;> simp [matchSyms, litsAgree, pushAll, hb, ih]

theorem matchEntry_eq_some {n : Nat} {e : Entry} {w : Window} {v : Nat} {a : Acc} :
    matchEntry n e w v = some a ↔
      e.nsym / 8 ≤ v ∧ litsAgree w 0 e.sym ∧ pushAll w 0 e.sym (Acc.clear n) = a := by
  unfold matchEntry byteLen
  split
  · simp; omega
  · simp [matchSyms_eq_some]; omega

theorem matchEntry_isSome {n : Nat} {e : Entry} {w : Window} {v : Nat} :
    (matchEntry n e w v).isSome = true ↔ e.nsym / 8 ≤ v ∧ litsAgree w 0 e.sym := by
  rw [Option.isSome_iff_exists]
  simp [matchEntry_eq_some]

/-- Agreement of the literals, position by position. -/
theorem litsAgree_iff {w : Window} {i : Nat} {l : List Symbol} :
    litsAgree w i l ↔ ∀ j, (l[j]? = some .l0 → windowBit w (i + j) = false) ∧
      (l[j]? = some .l1 → windowBit w (i + j) = true) := by
  induction l generalizing i with
  | nil => simp [litsAgree]
  | cons x l ih =>
    have shift : ∀ P : Nat → Prop, (∀ j, P j) ↔ P 0 ∧ ∀ j, P (j + 1) :=
      fun P => ⟨fun h => ⟨h 0, fun j => h (j + 1)⟩, fun h j => by cases j; exacts [h.1, h.2 _]⟩
    rw [shift]
    cases x <;> simp [litsAgree, ih, Nat.add_assoc, Nat.add_comm 1]

/-! ## One push -/

@[simp] theorem push_length (a : Acc) (c : Nat) (b : Bool) : (a.push c b).fval.length = a.fval.length := by
  simp [Acc.push]

theorem push_testBit (a : Acc) (c d : Nat) (b : Bool) :
    (a.push c b).present.testBit d = (a.present.testBit d || decide (c = d)) := by
  simp only [Acc.push, Nat.testBit_or, Nat.one_shiftLeft, Nat.testBit_two_pow]

theorem push_fval_ne (a : Acc) {c d : Nat} (b : Bool) (h : c ≠ d) : (a.push c b).fval[d]? = a.fval[d]? := by
  simp [Acc.push, h]

theorem push_fval_self (a : Acc) (c : Nat) (b : Bool) :
    (a.push c b).fval[c]? = a.fval[c]?.map (fun v => shiftIn v b) := by
  simp [Acc.push]

/-- A shift drops the top bit and takes the new one in at the bottom (R83). -/
theorem shiftIn_toNat (v : FieldVal) (b : Bool) : (shiftIn v b).toNat = (2 * v.toNat + b.toNat) % 2 ^ 48 := by
  have hb : (if b then 1#48 else 0#48).toNat = b.toNat := by cases b <;> rfl
  have hv : (v <<< 1).toNat = (v.toNat % 2 ^ 47) <<< 1 := by
    simp only [BitVec.toNat_shiftLeft, Nat.shiftLeft_eq]; omega
  have hlt : b.toNat < 2 ^ 1 := by cases b <;> decide
  rw [shiftIn, BitVec.toNat_or, hb, hv, ← Nat.shiftLeft_add_eq_or_of_lt hlt, Nat.shiftLeft_eq]
  omega

/-! ## The walk of pushes -/

/-- The walk touches only what it pushes: any fact every push keeps is kept. -/
theorem pushAll_induction {P : Acc → Prop} {w : Window} (l : List Symbol)
    (hstep : ∀ a c b, Symbol.field c ∈ l → P a → P (a.push c b)) (i : Nat) (a : Acc) (ha : P a) :
    P (pushAll w i l a) := by
  induction l generalizing i a with
  | nil => exact ha
  | cons x l ih =>
    have ih' := ih (fun a c b hc => hstep a c b (List.mem_cons_of_mem _ hc))
    cases x with
    | l0 => exact ih' _ _ ha
    | l1 => exact ih' _ _ ha
    | field c => exact ih' _ _ (hstep _ _ _ (by simp) ha)

@[simp] theorem pushAll_length (w : Window) (i : Nat) (l : List Symbol) (a : Acc) :
    (pushAll w i l a).fval.length = a.fval.length :=
  pushAll_induction (P := fun b => b.fval.length = a.fval.length) l (fun b c v _ h => by simpa using h) i a rfl

/-- A bit of the mask is set by the walk exactly when its slot occurs (R133). -/
theorem pushAll_testBit (w : Window) (i : Nat) (l : List Symbol) (a : Acc) (d : Nat) :
    (pushAll w i l a).present.testBit d = (a.present.testBit d || decide (Symbol.field d ∈ l)) := by
  induction l generalizing i a with
  | nil => simp [pushAll]
  | cons x l ih =>
    cases x with
    | l0 => simp [pushAll, ih]
    | l1 => simp [pushAll, ih]
    | field c => simp [pushAll, ih, push_testBit, Bool.or_assoc, eq_comm]

/-- A slot that does not occur keeps its value (R136). -/
theorem pushAll_absent {w : Window} {l : List Symbol} {d : Nat} (h : Symbol.field d ∉ l) (i : Nat) (a : Acc) :
    (pushAll w i l a).fval[d]? = a.fval[d]? :=
  pushAll_induction (P := fun b => b.fval[d]? = a.fval[d]?) l
    (fun b c v hc hb => by rw [push_fval_ne b v (by rintro rfl; exact h hc), hb]) i a rfl

/-- The walk reads only the window bits at the indices it passes (R56). -/
theorem pushAll_congr {w w' : Window} {i : Nat} {l : List Symbol} {a : Acc}
    (h : ∀ j, i ≤ j → j < i + l.length → windowBit w j = windowBit w' j) : pushAll w i l a = pushAll w' i l a := by
  induction l generalizing i a with
  | nil => rfl
  | cons x l ih =>
    have h0 := h i (Nat.le_refl i) (by simp)
    have ih' : ∀ b, pushAll w (i + 1) l b = pushAll w' (i + 1) l b :=
      fun b => ih (fun j h1 h2 => h j (by omega) (by simp; omega))
    cases x <;> simp [pushAll, ih', h0]

theorem litsAgree_congr {w w' : Window} {i : Nat} {l : List Symbol}
    (h : ∀ j, i ≤ j → j < i + l.length → windowBit w j = windowBit w' j) : litsAgree w i l ↔ litsAgree w' i l := by
  induction l generalizing i with
  | nil => exact Iff.rfl
  | cons x l ih =>
    have h0 := h i (Nat.le_refl i) (by simp)
    have ih' := ih (i := i + 1) (fun j h1 h2 => h j (by omega) (by simp; omega))
    cases x <;> simp [litsAgree, ih', h0]

end Sys2Proof.Machine
end

