-- ==== Sys2Proof/Laws/Resolver.lean ====
section
/-! SUPPORT. What a match attempt on one entry can answer, and how the priority order grows by insertion (R160). -/

namespace Sys2Proof.Machine

/-- A match attempt answers its own index, the registered entry there, and its fields. -/
theorem matchAt_eq_some {s : State} {w : Window} {n k : Nat} {x : Nat × Entry × Acc} :
    s.matchAt w n k = some x ↔ ∃ e a, s.entry? k = some e ∧ matchEntry s.cfg.nSlots e w n = some a ∧ x = (k, e, a) := by
  unfold State.matchAt
  cases he : s.entry? k with
  | none => simp
  | some e => simp [eq_comm]

theorem matchAt_lt {s : State} {w : Window} {n k : Nat} {x : Nat × Entry × Acc} (h : s.matchAt w n k = some x) :
    k < s.count := by
  obtain ⟨e, a, he, -⟩ := matchAt_eq_some.mp h
  exact ((entry?_eq_some s).mp he).1

theorem specAt_of_entry? {s : State} {k : Nat} {e : Entry} (h : s.entry? k = some e) : s.specAt k = e.spec := by
  simp [State.specAt, ((entry?_eq_some s).mp h).2]

/-- Inserting adds the index and keeps the others. -/
theorem orderInsert_perm (spec : Nat → Nat) (k : Nat) (l : List Nat) : (orderInsert spec k l).Perm (k :: l) := by
  induction l with
  | nil => exact .refl _
  | cons j l ih =>
    unfold orderInsert
    split
    · exact (ih.cons j).trans (.swap k j l)
    · exact .refl _

/-- The order of one index more is the order so far with that index inserted. -/
theorem priorityOrder_succ (spec : Nat → Nat) (n : Nat) : priorityOrder spec (n + 1) = orderInsert spec n (priorityOrder spec n) := by
  simp [priorityOrder, List.range_succ]

/-- The order depends on the specificities of the indices it lists alone. -/
theorem priorityOrder_congr {f g : Nat → Nat} {n : Nat} (hperm : ∀ m, ∀ j ∈ priorityOrder f m, j < m)
    (h : ∀ k, k < n → f k = g k) : priorityOrder f n = priorityOrder g n := by
  induction n with
  | zero => rfl
  | succ n ih =>
    have hins : ∀ l : List Nat, (∀ j ∈ l, j < n) → orderInsert f n l = orderInsert g n l := by
      intro l hl
      induction l with
      | nil => rfl
      | cons j l ihl =>
        have hj : f j = g j := h j (by have := hl j (by simp); omega)
        simp only [orderInsert, hj, h n (by omega), ihl (fun x hx => hl x (List.mem_cons_of_mem _ hx))]
    rw [priorityOrder_succ, priorityOrder_succ, ← ih (fun k hk => h k (by omega)), hins _ (hperm n)]

end Sys2Proof.Machine
end

