-- ==== Sys2Proof/Laws/Step.lean ====
section
/-! SUPPORT. What a command can do and what a step can do, said once: the inversion lemmas every statement about all
commands goes through. -/

namespace Sys2Proof.Machine

/-- Everything a command can do (R220): it responds `r` from a state `u` that is `s`, or `s` with one status bit set,
one entry appended, or one tag replaced, each with the conditions its rule gives. From `s` itself it responds with a
code alone, with a RESOLVE miss, or with a hit on a registered entry that matches. -/
theorem exec_cases {i : Instr} {s t : State} (h : exec i s = .next t) :
    ∃ u r, t = u.respond r ∧
      ((u = s ∧ (∀ mid p tag, i ≠ .register mid p tag) ∧
          ((∃ rc, r = s.blank rc ∧ rc ≠ .supersedeTargetMissing) ∨ r = { s.blank .noMatch with consume := 2 } ∨
           ∃ w n k e a, s.matchAt w n k = some (k, e, a) ∧ r = hitResp k e a)) ∨
       (i = .sealTable ∧ s.sealed = false ∧ u = s.setSealed ∧ r = s.blank .ok) ∨
       (∃ mid p tag rc, i = .register mid p tag ∧ u = s.setCfgFault ∧ r = s.blank rc ∧
          rc ∈ [RespCode.wrongPhase, .malformedTemplate, .duplicateMnemonic, .tableFull]) ∨
       (∃ mid tag, i = .supersede mid tag ∧ s.findMid mid = none ∧ u = s.setSupersedeMiss ∧
          r = s.blank .supersedeTargetMissing) ∨
       (∃ mid p tag c, i = .register mid p tag ∧ s.sealed = false ∧ compile s.cfg p = some c ∧
          s.findMid mid = none ∧ s.count ≠ s.cfg.nTemplates ∧ r = { s.blank .ok with tidx := s.count } ∧
          u = s.append { mid := mid, tag := tag, nsym := c.nsym, spec := c.spec, sym := c.sym }) ∨
       (∃ mid tag k, i = .supersede mid tag ∧ s.findMid mid = some k ∧ r = { s.blank .ok with tidx := k } ∧
          u = s.retag k tag)) := by
  cases i with
  | nop => exact ⟨s, _, (by simpa [exec, execNop] using h.symm), .inl ⟨rfl, by simp, .inl ⟨_, rfl, by simp⟩⟩⟩
  | reserved110 => exact ⟨s, _, (by simpa [exec, execReserved110] using h.symm), .inl ⟨rfl, by simp, .inl ⟨_, rfl, by simp⟩⟩⟩
  | reserved111 => exact ⟨s, _, (by simpa [exec, execReserved111] using h.symm), .inl ⟨rfl, by simp, .inl ⟨_, rfl, by simp⟩⟩⟩
  | sealTable =>
    simp only [exec, execSealTable, Host.Outcome.next.injEq] at h
    split at h
    · exact ⟨s, _, h.symm, .inl ⟨rfl, by simp, .inl ⟨_, rfl, by simp⟩⟩⟩
    · next hs => exact ⟨_, _, h.symm, .inr (.inl ⟨rfl, by simpa using hs, rfl, rfl⟩)⟩
  | supersede mid tag =>
    simp only [exec, execSupersede, Host.Outcome.next.injEq] at h
    split at h
    · next k hk => exact ⟨_, _, h.symm, .inr (.inr (.inr (.inr (.inr ⟨mid, tag, k, rfl, hk, rfl, rfl⟩))))⟩
    · next hk => exact ⟨_, _, h.symm, .inr (.inr (.inr (.inl ⟨mid, tag, rfl, hk, rfl, rfl⟩)))⟩
  | register mid p tag =>
    simp only [exec, execRegister, Host.Outcome.next.injEq] at h
    split at h
    · exact ⟨s.setCfgFault, _, h.symm, .inr (.inr (.inl ⟨mid, p, tag, _, rfl, rfl, rfl, by simp⟩))⟩
    · next hs =>
      split at h
      · exact ⟨s.setCfgFault, _, h.symm, .inr (.inr (.inl ⟨mid, p, tag, _, rfl, rfl, rfl, by simp⟩))⟩
      · next c hc =>
        split at h
        · exact ⟨s.setCfgFault, _, h.symm, .inr (.inr (.inl ⟨mid, p, tag, _, rfl, rfl, rfl, by simp⟩))⟩
        · next hm =>
          split at h
          · exact ⟨s.setCfgFault, _, h.symm, .inr (.inr (.inl ⟨mid, p, tag, _, rfl, rfl, rfl, by simp⟩))⟩
          · next hn =>
            exact ⟨_, _, h.symm, .inr (.inr (.inr (.inr (.inl ⟨mid, p, tag, c, rfl, by simpa using hs, hc,
              by simpa using hm, hn, rfl, rfl⟩))))⟩
  | matchTemplate k w av =>
    simp only [exec, execMatchTemplate, Host.Outcome.next.injEq] at h
    split at h
    · exact ⟨s, _, h.symm, .inl ⟨rfl, by simp, .inl ⟨_, rfl, by simp⟩⟩⟩
    · split at h
      · exact ⟨s, _, h.symm, .inl ⟨rfl, by simp, .inl ⟨_, rfl, by simp⟩⟩⟩
      · split at h
        · exact ⟨s, _, h.symm, .inl ⟨rfl, by simp, .inl ⟨_, rfl, by simp⟩⟩⟩
        · next e he =>
          split at h
          · exact ⟨s, _, h.symm, .inl ⟨rfl, by simp, .inl ⟨_, rfl, by simp⟩⟩⟩
          · next a ha =>
            exact ⟨s, _, h.symm, .inl ⟨rfl, by simp, .inr (.inr ⟨w, _, k, e, a,
              matchAt_eq_some.mpr ⟨e, a, he, ha, rfl⟩, rfl⟩)⟩⟩
  | resolve w av =>
    simp only [exec, execResolve, Host.Outcome.next.injEq] at h
    split at h
    · exact ⟨s, _, h.symm, .inl ⟨rfl, by simp, .inl ⟨_, rfl, by simp⟩⟩⟩
    · split at h
      · exact ⟨s, _, h.symm, .inl ⟨rfl, by simp, .inl ⟨_, rfl, by simp⟩⟩⟩
      · split at h
        · exact ⟨s, _, h.symm, .inl ⟨rfl, by simp, .inr (.inl rfl)⟩⟩
        · next k e a hr =>
          obtain ⟨j, -, hj⟩ := List.exists_of_findSome?_eq_some hr
          obtain ⟨e', a', he, ha, hx⟩ := matchAt_eq_some.mp hj
          cases hx
          exact ⟨s, _, h.symm, .inl ⟨rfl, by simp, .inr (.inr ⟨w, _, k, e, a, hj, rfl⟩)⟩⟩

/-- Every command answers a next state (R220). -/
theorem exec_next (i : Instr) (s : State) : ∃ t, exec i s = .next t := by
  cases i <;> exact ⟨_, rfl⟩

/-- Everything a step can do when it goes on: nothing issued, a reset, or a command executed (R237, R251, R61). -/
theorem step_cases {s t : State} (h : step s = .next t) :
    (s.input = [] ∧ t = s) ∨
    (∃ p rest, s.input = .rst p :: rest ∧ p < s.cfg.nLookupPorts ∧ t = { State.initial s.cfg with input := rest }) ∨
    (∃ p σ rest, s.input = .command p σ :: rest ∧ p < s.cfg.nLookupPorts ∧
      exec (decode s.cfg σ) { s with port := p, input := rest } = .next t) := by
  unfold step State.fetch at h
  cases hi : s.input with
  | nil =>
    simp only [hi] at h
    exact .inl ⟨rfl, by simpa using h.symm⟩
  | cons ev rest =>
    cases ev with
    | rst p =>
      by_cases hp : p < s.cfg.nLookupPorts
      · simp only [hi, hp, if_true, Host.Outcome.next.injEq] at h
        exact .inr (.inl ⟨p, rest, rfl, hp, h.symm⟩)
      · simp [hi, hp] at h
    | command p σ =>
      by_cases hp : p < s.cfg.nLookupPorts
      · simp only [hi, hp, if_true] at h
        exact .inr (.inr ⟨p, σ, rest, rfl, hp, h⟩)
      · simp [hi, hp] at h

/-- A run of any machine that starts with a step to `t` goes on from `t`. -/
theorem run_succ (M : Host.Core) (k : Nat) (s t : M.State) (h : M.step s = .next t) : M.run (k + 1) s = M.run k t := by
  rw [Host.Core.run, h]

end Sys2Proof.Machine
end

