-- ==== Sys2Proof/Laws/Driver.lean ====
section
/-! SUPPORT. What an event put on a port does, and everything a driver step and a view's action can do, said once. -/

namespace Sys2Proof.Machine

/-- A command put on a port the block has is executed on that port; what is already announced stays (R61). -/
theorem issue_command (s : State) (p : Nat) (σ : Signals) (h : p < s.cfg.nLookupPorts) :
    s.issue (.command p σ) = exec (decode s.cfg σ) { s with port := p } := by
  simp [State.issue, step, State.fetch, h]

theorem issue_rst (s : State) (p : Nat) (h : p < s.cfg.nLookupPorts) :
    s.issue (.rst p) = .next { State.initial s.cfg with input := s.input } := by
  simp [State.issue, step, State.fetch, h, State.resetNow]

theorem issue_absent (s : State) (p : Nat) (σ : Signals) (h : ¬ p < s.cfg.nLookupPorts) :
    s.issue (.command p σ) = .fault .noSuchPort := by
  simp [State.issue, step, State.fetch, h]

@[simp] theorem decode_driverResolve (cfg : Config) (r : Reads) (d : DriverState) :
    decode cfg (encode (driverResolve r d)) = driverResolve r d := rfl

/-- Everything a driver step that goes on can be (R197): a data range, without a command; a hit; a miss. -/
theorem driverStep_running {env : Environment} {r : Reads} {labels : List JumpCallRecord} {s t : State}
    {d d' : DriverState} (h : driverStep env r labels s d = .running t d') :
    d.addr < d.endAddr ∧
    ((0 < dataLength env r d ∧ t = s ∧ d' = driverData r (dataLength env r d) d) ∨
     (dataLength env r d = 0 ∧ d.port < s.cfg.nLookupPorts ∧ ∃ q, exec (driverResolve r d) { s with port := d.port } = .next t ∧
        t.resp[d.port]? = some q ∧
        ((q.rc = .ok ∧ d' = driverHit env r labels q d) ∨ (q.rc = .noMatch ∧ d' = driverDump r d)))) := by
  unfold driverStep at h
  split at h
  · cases h
  · next hend =>
    refine ⟨by omega, ?_⟩
    split at h
    · next hn => cases h; exact .inl ⟨hn, rfl, rfl⟩
    · next hn =>
      by_cases hp : d.port < s.cfg.nLookupPorts
      · rw [issue_command s d.port _ hp, decode_driverResolve] at h
        split at h
        · next s' hs =>
          split at h
          · cases h
          · next q hq =>
            split at h
            · next hok => cases h; exact .inr ⟨by omega, hp, q, hs, hq, .inl ⟨hok, rfl⟩⟩
            · split at h
              · next hno => cases h; exact .inr ⟨by omega, hp, q, hs, hq, .inr ⟨hno, rfl⟩⟩
              · cases h
        · cases h
        · cases h
      · rw [issue_absent s d.port _ hp] at h
        cases h

/-- Where a driver step stops done: only at the end, with nothing changed (R203). -/
theorem driverStep_done {env : Environment} {r : Reads} {labels : List JumpCallRecord} {s t : State}
    {d d' : DriverState} (h : driverStep env r labels s d = .done t d') : d.endAddr ≤ d.addr ∧ t = s ∧ d' = d := by
  unfold driverStep at h
  split at h
  · next he => cases h; exact ⟨he, rfl, rfl⟩
  · split at h
    · cases h
    · split at h
      · split at h
        · cases h
        · split at h
          · cases h
          · split at h <;> cases h
      · cases h
      · cases h

/-- Where a driver step faults: RESOLVE answered with a code that is neither `OK` nor `NO_MATCH` (R198). -/
theorem driverStep_fault {env : Environment} {r : Reads} {labels : List JumpCallRecord} {s t : State}
    {d d' : DriverState} {rc : RespCode} (h : driverStep env r labels s d = .fault rc t d') :
    d' = d ∧ d.port < s.cfg.nLookupPorts ∧ rc ≠ .ok ∧ rc ≠ .noMatch ∧
    ∃ q, exec (driverResolve r d) { s with port := d.port } = .next t ∧ t.resp[d.port]? = some q ∧ q.rc = rc := by
  unfold driverStep at h
  split at h
  · cases h
  · split at h
    · cases h
    · by_cases hp : d.port < s.cfg.nLookupPorts
      · rw [issue_command s d.port _ hp, decode_driverResolve] at h
        split at h
        · next s' hs =>
          split at h
          · cases h
          · next q hq =>
            split at h
            · cases h
            · next hok =>
              split at h
              · cases h
              · next hno => cases h; exact ⟨rfl, hp, hok, hno, q, hs, hq, rfl⟩
        · cases h
        · cases h
      · rw [issue_absent s d.port _ hp] at h
        cases h

/-! The three ways a driver's state goes on, field by field. -/

section
variable (env : Environment) (r : Reads) (labels : List JumpCallRecord) (q : Resp) (n : Nat) (d : DriverState)

@[simp] theorem driverData_addr : (driverData r n d).addr = d.addr + n := rfl
@[simp] theorem driverData_endAddr : (driverData r n d).endAddr = d.endAddr := rfl
@[simp] theorem driverData_bufLen : (driverData r n d).bufLen = d.bufLen := rfl
@[simp] theorem driverData_port : (driverData r n d).port = d.port := rfl
@[simp] theorem driverData_records : (driverData r n d).records = d.records := rfl
@[simp] theorem driverHit_addr : (driverHit env r labels q d).addr = d.addr + q.consume := rfl
@[simp] theorem driverHit_endAddr : (driverHit env r labels q d).endAddr = d.endAddr := rfl
@[simp] theorem driverHit_bufLen : (driverHit env r labels q d).bufLen = d.bufLen := rfl
@[simp] theorem driverHit_port : (driverHit env r labels q d).port = d.port := rfl
@[simp] theorem driverHit_records : (driverHit env r labels q d).records = recordHit env q d := rfl
@[simp] theorem driverDump_addr : (driverDump r d).addr = d.addr + 2 := rfl
@[simp] theorem driverDump_endAddr : (driverDump r d).endAddr = d.endAddr := rfl
@[simp] theorem driverDump_bufLen : (driverDump r d).bufLen = d.bufLen := rfl
@[simp] theorem driverDump_port : (driverDump r d).port = d.port := rfl
@[simp] theorem driverDump_records : (driverDump r d).records = d.records := rfl

end

/-- How a walk with a turn left to take can still be running: the turn was an event that the block took, or a driver
step that goes on, and the rest of the walk runs from there. -/
theorem driverWalk_cons_running {env : Environment} {labels : List JumpCallRecord} {tn : Turn} {rest : List Turn}
    {s t : State} {d d' : DriverState} (h : driverWalk env labels (tn :: rest) s d = .running t d') :
    (∃ e s', tn = .other e ∧ s.issue e = .next s' ∧ driverWalk env labels rest s' d = .running t d') ∨
    ∃ r s' d1, tn = .mine r ∧ driverStep env r labels s d = .running s' d1 ∧
      driverWalk env labels rest s' d1 = .running t d' := by
  cases tn with
  | other e =>
    simp only [driverWalk] at h
    split at h
    · next s' hs => exact .inl ⟨e, s', rfl, hs, h⟩
    · cases h
    · cases h
  | mine r =>
    simp only [driverWalk] at h
    split at h
    · next s' d1 hs => exact .inr ⟨r, s', d1, rfl, hs, h⟩
    · cases h
    · cases h
    · cases h

@[simp] theorem afterLine_display (v : View) : v.afterLine.display = v.display := by
  unfold View.afterLine; split <;> rfl

/-- What an action does (R61, R201): a view's own step and its own place in the list, or an event on the block. -/
theorem act_cases {env : Environment} {w w' : World} {a : Action} (h : w.act env a = some w') :
    (∃ i r v, a = .view i r ∧ w.views[i]? = some v ∧ w'.block = (v.turn env r w.block).1 ∧
      w'.views = w.views.set i (v.turn env r w.block).2) ∨
    (∃ e, a = .event e ∧ w.block.issue e = .next w'.block ∧ w'.views = w.views) := by
  unfold World.act at h
  split at h
  · next i r =>
    split at h
    · next v hv => cases h; exact .inl ⟨i, r, v, rfl, hv, rfl, rfl⟩
    · cases h
  · next e =>
    split at h
    · next s hs => cases h; exact .inr ⟨e, rfl, hs, rfl⟩
    · cases h
    · cases h

end Sys2Proof.Machine
end

