-- ==== Sys2Proof/Laws/PerInstr.lean ====
section
/-! SUPPORT. Facts about each command as syntax, one lemma per constructor of `Instr`. -/

namespace Sys2Proof.Laws

/-- The encoded command carries its own code (R80) on signals that fit the wires of the port (R79): where the
operands fit, so do the signals. -/
def EncodeFits.Statement (i : Instr) : Prop :=
  ∀ cfg : Config, i.wellFormed cfg = true →
    (encode i).cmd = i.cmd ∧ (encode i).argMid < 2 ^ cfg.midW ∧ (encode i).argTag < 2 ^ cfg.tagW ∧
    (encode i).argPatLen < 2 ^ cfg.patLenW ∧ (encode i).argPat.length ≤ cfg.patMaxChars ∧
    (encode i).argTidx < 2 ^ cfg.tidxW

theorem EncodeFits.nop : EncodeFits.Statement .nop := by
  intro cfg _; simp [encode, Instr.cmd]

theorem EncodeFits.register (mid : Nat) (pat : PatStr) (tag : Nat) : EncodeFits.Statement (.register mid pat tag) := by
  intro cfg h
  simp only [Instr.wellFormed, midFits, patFits, tagFits, Bool.and_eq_true, decide_eq_true_eq, beq_iff_eq] at h
  obtain ⟨⟨h1, h2, h3⟩, h4⟩ := h
  exact ⟨rfl, h1, h4, h2, by simp [encode, h3], by simp [encode]⟩

theorem EncodeFits.supersede (mid tag : Nat) : EncodeFits.Statement (.supersede mid tag) := by
  intro cfg h
  simp only [Instr.wellFormed, midFits, tagFits, Bool.and_eq_true, decide_eq_true_eq] at h
  simp [encode, Instr.cmd, h.1, h.2]

theorem EncodeFits.sealTable : EncodeFits.Statement .sealTable := by
  intro cfg _; simp [encode, Instr.cmd]

theorem EncodeFits.matchTemplate (tidx : Nat) (w : Window) (avail : BitVec 3) :
    EncodeFits.Statement (.matchTemplate tidx w avail) := by
  intro cfg h
  simp only [Instr.wellFormed, tidxFits, decide_eq_true_eq] at h
  simp [encode, Instr.cmd, h]

theorem EncodeFits.resolve (w : Window) (avail : BitVec 3) : EncodeFits.Statement (.resolve w avail) := by
  intro cfg _; simp [encode, Instr.cmd]

theorem EncodeFits.reserved110 : EncodeFits.Statement .reserved110 := by
  intro cfg _; simp [encode, Instr.cmd]

theorem EncodeFits.reserved111 : EncodeFits.Statement .reserved111 := by
  intro cfg _; simp [encode, Instr.cmd]

end Sys2Proof.Laws
end

