-- ==== Sys2Proof/Tests/Slice0.lean ====
section
/-! SUPPORT. The model's own tests: what WellFormed refuses, decoding of written-out signals, one step per command
against the spec's vectors, and a witness for the hypotheses of each obligation. -/

namespace Sys2Proof.Tests

open Sys2Proof Sys2Proof.Machine Sys2Proof.Stated

-- One theorem at a time: the kernel evaluations below would else each hold a thread of their own.
set_option Elab.async false

/-! ## Small configurations and states -/

/-- A pattern string, one character per byte (R13). -/
def ps (x : String) : PatStr := { len := x.toList.length, chars := x.toList.map (fun c => BitVec.ofNat 8 c.toNat) }

/-- Two ports, two templates, letters `d` and `r`. -/
def tiny : Config :=
  { nTemplates := 2, midW := 4, tagW := 4, patMaxChars := 59, fieldAlphabet := [0x64#8, 0x72#8], nLookupPorts := 2 }

/-- The entry of a template; the blank one where the pattern is malformed. -/
def entryOf (cfg : Config) (mid : Nat) (pat : String) (tag : Nat) : Entry :=
  match compile cfg (ps pat) with
  | some c => { mid := mid, tag := tag, nsym := c.nsym, spec := c.spec, sym := c.sym }
  | none => Entry.blank

/-- A block with these registered entries and this status, serving port 0. -/
def block (cfg : Config) (es : List Entry) (status : BitVec 8) (input : List Event := []) : State :=
  { State.initial cfg with
    tbl := es ++ List.replicate (cfg.nTemplates - es.length) Entry.blank
    count := es.length
    status := status
    input := input }

def adc : String := "0001 11rd dddd rrrr"
def sec : String := "1001 0100 0000 1000"

/-- Templates of configuration A, with the vectors' parameters: the tables of the tests below. -/
def e52 (mid : Nat) (pat : String) : Entry := entryOf Config.vectors mid pat mid

/-- The two-template table of the witnesses: `adc` under 3 and `sec` under 5. -/
def two : List Entry := [entryOf tiny 3 adc 3, entryOf tiny 5 sec 5]

def win (b0 b1 : Byte) : Window := ⟨b0, b1, 0, 0, 0, 0⟩

/-- The state an outcome holds, for reading a test's result. -/
def out : Host.Outcome State Fault Refusal → State
  | .next s => s
  | .fault _ => State.reset
  | .refused _ => State.reset

/-- The response a command gives on port 0. -/
def ans (o : Host.Outcome State Fault Refusal) : Resp := (out o).resp.getD 0 (Resp.zero 0 .illegalCommand)

/-! ## What WellFormed refuses (R79), each check with an ill-formed term and the last value that fits -/

theorem test_wf_mid : Instr.wellFormed tiny (.supersede 16 0) = false ∧ Instr.wellFormed tiny (.supersede 15 0) = true := by
  decide

theorem test_wf_tag : Instr.wellFormed tiny (.supersede 0 16) = false ∧ Instr.wellFormed tiny (.supersede 0 15) = true := by
  decide

theorem test_wf_tidx : Instr.wellFormed tiny (.matchTemplate 2 (win 0 0) 2) = false ∧
    Instr.wellFormed tiny (.matchTemplate 1 (win 0 0) 2) = true := by decide

theorem test_wf_register_mid : Instr.wellFormed tiny (.register 16 (ps adc) 0) = false := by decide

theorem test_wf_register_tag : Instr.wellFormed tiny (.register 0 (ps adc) 16) = false := by decide

/-- `arg_pat_len` has 6 bits here: 63 fits, 64 does not; of 63 characters the port carries 59. -/
theorem test_wf_pat_len :
    Instr.wellFormed tiny (.register 0 { len := 64, chars := List.replicate 59 0x30#8 } 0) = false ∧
    Instr.wellFormed tiny (.register 0 { len := 63, chars := List.replicate 59 0x30#8 } 0) = true := by decide

theorem test_wf_pat_chars :
    Instr.wellFormed tiny (.register 0 { len := 63, chars := List.replicate 63 0x30#8 } 0) = false ∧
    Instr.wellFormed tiny (.register 0 { len := 3, chars := [0x30#8] } 0) = false := by decide

/-- The bounds of R8, each with a configuration that breaks it alone. -/
theorem test_wf_config : tiny.Wf ∧ ¬ { tiny with nTemplates := 0 }.Wf ∧ ¬ { tiny with midW := 0 }.Wf ∧
    ¬ { tiny with tagW := 0 }.Wf ∧ ¬ { tiny with patMaxChars := 58 }.Wf ∧ ¬ { tiny with nLookupPorts := 0 }.Wf ∧
    ¬ { tiny with fieldAlphabet := [0x72#8, 0x64#8] }.Wf ∧ ¬ { tiny with fieldAlphabet := [0x30#8] }.Wf := by
  decide

/-! ## Decoding: the words of the opcode table, written from R80, and operands from R79 -/

theorem test_decode_nop : decodeTableWord 8 0b000 = some .nop := by decide

theorem test_decode_register : decodeTableWord 8 0b001 = some (.register 0 { len := 0, chars := [] } 0) := by decide

theorem test_decode_supersede : decodeTableWord 8 0b010 = some (.supersede 0 0) := by decide

theorem test_decode_seal : decodeTableWord 8 0b011 = some .sealTable := by decide

theorem test_decode_match : decodeTableWord 8 0b100 = some (.matchTemplate 0 Window.zero 0) := by decide

theorem test_decode_resolve : decodeTableWord 8 0b101 = some (.resolve Window.zero 0) := by decide

theorem test_decode_reserved :
    decodeTableWord 8 0b110 = some .reserved110 ∧ decodeTableWord 8 0b111 = some .reserved111 := by decide

theorem test_decode_no_code : decodeTableWord 2 0b10 = none := by decide

/-- REGISTER takes `arg_pat[0 .. arg_pat_len-1]`, the identifier and the tag; the other signals are ignored. -/
theorem test_decode_operands :
    decode tiny { cmd := 0b001#3, argMid := 9, argTag := 12, argPat := [0x31#8, 0x20#8, 0x64#8], argPatLen := 2,
                  argTidx := 1, window := win 1 2, avail := 7 } =
      .register 9 { len := 2, chars := [0x31#8, 0x20#8] } 12 := by decide

/-- The host's placing of a table word: the next step runs it. -/
theorem test_fetch_table_word : step (State.reset.withFetchWord 8 0b011) = exec .sealTable State.reset := by rfl

/-! ## One step per command, against the spec's vectors (95_test_vectors.md) -/

/-- V-L4. -/
theorem test_nop : ans (exec .nop State.reset) = Resp.zero 52 .ok := by decide +kernel

/-- V-C1: `TBL[0]` is {3, 3, nsym 16, spec 6}, `tidx = 0`, `count = 1`. -/
theorem test_register : let s := out (exec (.register 3 (ps adc) 3) State.reset)
    ans (.next s) = { Resp.zero 52 .ok with tidx := 0, count := 1 } ∧
    (s.registered.map (fun e => (e.mid, e.tag, e.nsym, e.spec))) = [(3, 3, 16, 6)] := by decide +kernel

/-- V-C17: the duplicate is reported before the full table. -/
theorem test_register_priority :
    let s := block { Config.vectors with nTemplates := 2 } [e52 1 "0000 0000 0000 0000", e52 2 sec] 0#8
    let r := ans (exec (.register 1 (ps "0000 0000 0000 0010") 1) s)
    r.rc = .duplicateMnemonic ∧ r.status = 0x02#8 ∧ r.count = 2 := by decide +kernel

/-- V-S1 on a table of one entry: the new tag, and the index. -/
theorem test_supersede : let s := out (exec (.supersede 3 0x83) (block Config.vectors [e52 3 adc] 1#8))
    (ans (.next s)).rc = .ok ∧ (ans (.next s)).tidx = 0 ∧ s.registered.map Entry.tag = [0x83] ∧ s.status = 1#8 := by
  decide +kernel

/-- V-S6: a miss on the empty table. -/
theorem test_supersede_miss : let r := ans (exec (.supersede 1 1) State.reset)
    r.rc = .supersedeTargetMissing ∧ r.status = 0x04#8 ∧ r.count = 0 := by decide +kernel

/-- V-L1. -/
theorem test_seal : let r := ans (exec .sealTable State.reset)
    r.rc = .ok ∧ r.status = 0x01#8 ∧ r.count = 0 := by decide +kernel

/-- V-L2: a second SEAL. -/
theorem test_seal_twice : let s := out (exec .sealTable (block Config.vectors [] 1#8))
    (ans (.next s)).rc = .wrongPhase ∧ s.status = 0x01#8 := by decide +kernel

/-- V-M1 (E1): `d` is slot 29 and `r` slot 43; 0x15 and 0x1F from the window `5F 1F`. -/
theorem test_match : let r := ans (exec (.matchTemplate 0 (win 0x5F 0x1F) 2) (block Config.vectors [e52 3 adc] 1#8))
    r.rc = .ok ∧ r.hit = true ∧ r.len = 2 ∧ r.consume = 2 ∧ r.spec = 6 ∧ r.fmask = 0x80020000000 ∧
    r.fval.getD 29 0 = 0x15#48 ∧ r.fval.getD 43 0 = 0x1F#48 := by decide +kernel

/-- V-M2: the same bytes in stream order miss, with `consume = 0`. -/
theorem test_match_miss :
    let r := ans (exec (.matchTemplate 0 (win 0x1F 0x5F) 2) (block Config.vectors [e52 3 adc] 1#8))
    r.rc = .noMatch ∧ r.consume = 0 := by decide +kernel

/-- V-R10: the 22-bit field of the 32-bit `JMP` template, and V-R29's swapped words miss with `consume = 2`. -/
theorem test_resolve :
    let s := block Config.vectors [e52 8 "1001 010k kkkk 110k kkkk kkkk kkkk kkkk"] 1#8
    let r := ans (exec (.resolve ⟨0x0D, 0x95, 0xFF, 0xFF, 0, 0⟩ 4) s)
    let m := ans (exec (.resolve ⟨0x34, 0x12, 0x0C, 0x94, 0, 0⟩ 4) s)
    r.rc = .ok ∧ r.len = 4 ∧ r.consume = 4 ∧ r.spec = 10 ∧ r.fval.getD 36 0 = 0x21FFFF#48 ∧
    m.rc = .noMatch ∧ m.consume = 2 := by decide +kernel

/-- V-R1, V-R2: the fully literal template first, though registered later. -/
theorem test_resolve_priority :
    let s := block Config.vectors [e52 4 "1001 0100 0sss 1000", e52 5 sec] 1#8
    (ans (exec (.resolve (win 0x08 0x94) 2) s)).tidx = 1 ∧ (ans (exec (.resolve (win 0x18 0x94) 2) s)).tidx = 0 := by
  decide +kernel

/-- V-X1. -/
theorem test_reserved110 : ans (exec .reserved110 State.reset) = Resp.zero 52 .illegalCommand := by decide +kernel

/-- V-X2, on an empty sealed table: no state change. -/
theorem test_reserved111 : let s := out (exec .reserved111 (block Config.vectors [] 1#8))
    (ans (.next s)).rc = .illegalCommand ∧ s.status = 1#8 ∧ s.count = 0 := by decide +kernel

/-- V-X3: `rst` empties the table and clears the status. -/
theorem test_rst : let s := out (step (block Config.vectors [e52 3 adc] 7#8 [.rst 0]))
    s.status = 0#8 ∧ s.count = 0 ∧ s.input = [] := by decide +kernel

/-- V-C14: 60 characters on a port of 59 are too many, though 16 of them are symbols. -/
theorem test_compile_too_long :
    compile { Config.vectors with patMaxChars := 59 } { len := 60, chars := List.replicate 16 0x30#8 ++ List.replicate 43 0x20#8 }
      = none := by decide +kernel

/-- P2, its first and second driver steps: a decoded instruction, then a data range of 3 bytes. -/
def p2env : Environment :=
  { classify := fun _ a => if a = 2 then 3 else 0, text := fun _ _ _ _ => ("", ""), target := fun _ _ _ _ _ => none,
    nameFor := fun _ => none, synthName := fun _ => "" }

/-- The engine is quiet; the byte past the buffer is some value. -/
def p2reads : Reads := Reads.quiet [0x00, 0x00, 0xAA, 0xBB, 0xCC, 0x08, 0x94, 0xFF] (fun _ => 0x5A)

/-- Where a driver step leaves the decode address. -/
def addrAfter : DriverOutcome → Option Nat
  | .running _ d => some d.addr
  | .done _ _ => none
  | .fault _ _ _ => none
  | .noAnswer => none

theorem test_driver_p2 :
    let s := block Config.vectors [e52 1 "0000 0000 0000 0000", e52 5 sec] 1#8
    addrAfter (driverStep p2env p2reads [] s (driverStart 0 8 0 8)) = some 2 ∧
    addrAfter (driverStep p2env p2reads [] s (driverStart 0 8 2 8)) = some 5 ∧
    addrAfter (driverStep p2env p2reads [] s (driverStart 0 8 5 8)) = some 7 := by decide +kernel

/-- The lines a walk has put out. -/
def linesOf : DriverOutcome → List Line
  | .running _ d => d.output
  | .done _ d => d.output
  | .fault _ _ d => d.output
  | .noAnswer => []

/-! ## A witness for the hypotheses of each obligation that has any -/

/-- A sealed, fault-free table of two entries on two ports, serving port 0. -/
def ready : State := block tiny two 1#8

/-- The same table before SEAL. -/
def building : State := block tiny two 0#8

/-- One entry of two: there is room for one more. -/
def half : State := block tiny [entryOf tiny 3 adc 3] 0#8

/-- The `n` valid bytes and the window `5F 1F` of the worked example E1. -/
def e1 : Window := win 0x5F 0x1F

/-- The tables are reachable shapes: they meet the invariant. -/
theorem witness_invariant_ready : ready.Wf := by decide +kernel

theorem witness_invariant_building : building.Wf := by decide +kernel

theorem witness_invariant_half : half.Wf := by decide +kernel

/-- Signals with each code of R80: the hypotheses of the encoding clause of each command's statement. -/
theorem witness_command_codes :
    (encode .nop).cmd = 0b000#3 ∧ (encode (.register 3 (ps adc) 3)).cmd = 0b001#3 ∧
    (encode (.supersede 3 9)).cmd = 0b010#3 ∧ (encode .sealTable).cmd = 0b011#3 ∧
    (encode (.matchTemplate 1 e1 2)).cmd = 0b100#3 ∧ (encode (.resolve e1 2)).cmd = 0b101#3 := by decide

theorem witness_NopRespondsOk : (encode .nop).cmd = 0b000#3 := by decide

theorem witness_ReservedCodesRespondIllegalCommand :
    (encode .reserved110).cmd = 0b110#3 ∧ (encode .reserved111).cmd = 0b111#3 := by decide

theorem witness_DecodeOfEncodeIsTheCommand :
    Instr.wellFormed tiny (.register 15 { len := 63, chars := List.replicate 59 0x30#8 } 15) = true ∧
    Instr.wellFormed tiny (.supersede 15 15) = true ∧ Instr.wellFormed tiny (.matchTemplate 1 e1 7) = true ∧
    Instr.wellFormed tiny (.resolve e1 7) = true := by decide

/-- Two settings of the signals that differ where the command ignores them. -/
theorem witness_UnusedSignalsAreIgnored :
    let σ : Signals := { cmd := 0b001#3, argMid := 1, argTag := 2, argPat := [0x30#8, 0x31#8], argPatLen := 1 }
    let τ : Signals := { σ with argPat := [0x30#8, 0x72#8, 0x72#8], argTidx := 5, window := e1, avail := 3 }
    (σ.argMid = τ.argMid ∧ σ.argTag = τ.argTag) ∧ σ.argPatLen = τ.argPatLen ∧
    (∀ j, j < σ.argPatLen → j < tiny.patMaxChars → σ.argPat[j]? = τ.argPat[j]?) ∧ σ ≠ τ := by decide +kernel

theorem witness_UnusedSignalsAreIgnored_lookup :
    let σ : Signals := { cmd := 0b100#3, argTidx := 1, window := e1, avail := 7 }
    let τ : Signals := { σ with argMid := 9, argTag := 9, argPat := [0x30#8], argPatLen := 1 }
    σ.argTidx = τ.argTidx ∧ σ.window = τ.window ∧ σ.avail = τ.avail ∧ σ ≠ τ := by decide +kernel

theorem witness_StepExecutesTheDecodedCommand :
    let s := block tiny two 1#8 [.command 1 { cmd := 0b011#3 }]
    s.input = .command 1 { cmd := 0b011#3 } :: [] ∧ 1 < s.cfg.nLookupPorts ∧
    decode s.cfg { cmd := 0b011#3 } = .sealTable := by decide +kernel

theorem witness_IdleStepHoldsTheState : ready.input = [] := by decide +kernel

theorem witness_EventOnAbsentPortFaults :
    tiny.nLookupPorts ≤ 2 ∧ (block tiny two 1#8 [.rst 2]).input = .rst 2 :: [] ∧
    (block tiny two 1#8 [.command 2 { cmd := 0 }]).input = .command 2 { cmd := 0 } :: [] := by decide +kernel

theorem witness_EveryCommandCompletes :
    { ready with port := 1 }.port < ready.resp.length ∧ ready.PortsExist ∧ (block tiny two 1#8 [.rst 1]).PortsExist ∧
    (block tiny two 1#8 [.command 1 { cmd := 0b110#3 }]).PortsExist :=
  ⟨by decide +kernel, trivial, Nat.lt_succ_self 1, Nat.lt_succ_self 1⟩

theorem witness_ResetStateIsTheSpecs : 1 < tiny.nLookupPorts ∧ 0 < Config.vectors.nLookupPorts := by decide

theorem witness_RstRestoresTheResetState :
    (block tiny two 7#8 [.rst 1]).input = .rst 1 :: [] ∧ 1 < (block tiny two 7#8 [.rst 1]).cfg.nLookupPorts := by
  decide +kernel

/-- Every status bit set, and a command that is not a reset. -/
theorem witness_OnlyResetClearsStatusBits :
    let s := block tiny two 7#8 [.command 0 { cmd := 0b000#3 }]
    (∃ t, step s = .next t) ∧ noReset s ∧ s.sealed = true ∧ s.cfgFault = true ∧ s.supersedeMiss = true :=
  by
  intro s
  exact ⟨⟨_, rfl⟩, by simp [noReset, s, block], by decide +kernel, by decide +kernel, by decide +kernel⟩

theorem witness_ReservedValuesNeverAppear :
    let s := block tiny two 7#8 [.command 0 { cmd := 0b011#3 }]
    s.status.extractLsb' 3 5 = 0#5 ∧ ∃ t, step s = .next t := ⟨by decide +kernel, _, rfl⟩

theorem witness_ResetStateIsWellFormed : tiny.Wf ∧ Config.vectors.Wf := by decide +kernel

theorem witness_EveryStepKeepsWellFormedness :
    let s := block tiny two 1#8 [.command 1 (encode (.resolve e1 2))]
    s.Wf ∧ ∃ t, step s = .next t := ⟨by decide +kernel, _, rfl⟩

theorem witness_IdentifiersStayDistinct :
    let s := block tiny [entryOf tiny 3 adc 3] 0#8 [.command 0 (encode (.register 5 (ps sec) 5))]
    (s.registered.map Entry.mid).Nodup ∧ ∃ t, step s = .next t := ⟨by decide +kernel, _, rfl⟩

/-- The accepted form, at the last free index. -/
theorem witness_RegisterInsertsOrRejects_ok :
    half.sealed = false ∧ (compile tiny (ps sec)).isSome ∧ fresh half 5 ∧ half.count + 1 = tiny.nTemplates := by
  unfold fresh; decide +kernel

/-- The rejections: sealed; malformed; duplicate; full. -/
theorem witness_RegisterInsertsOrRejects_rejected :
    ready.sealed = true ∧ half.sealed = false ∧ compile tiny (ps "0000 0000") = none ∧
    (compile tiny (ps sec)).isSome ∧ ¬ fresh half 3 ∧ building.sealed = false ∧ fresh building 9 ∧
    building.count = building.cfg.nTemplates := by
  unfold fresh; decide +kernel

theorem witness_SupersedeRetagsOrReportsMiss :
    (ready.registered.map Entry.mid).Nodup ∧ (1 < ready.count ∧ ready.tbl[1]? = some (entryOf tiny 5 sec 5) ∧
    (entryOf tiny 5 sec 5).mid = 5) ∧ fresh ready 15 := by
  unfold fresh; decide +kernel

theorem witness_LookupAfterSupersedeSeesNewTag :
    (ready.registered.map Entry.mid).Nodup ∧ 0 < ready.count ∧ ready.tbl[0]? = some (entryOf tiny 3 adc 3) ∧
    (entryOf tiny 3 adc 3).mid = 3 ∧ (∃ t, exec (.supersede 3 9) ready = .next t) ∧
    (ready.resolve? e1 2).isSome ∧ (ready.matchAt e1 2 0).isSome :=
  ⟨by decide +kernel, by decide +kernel, by decide +kernel, by decide +kernel, ⟨_, rfl⟩, by decide +kernel,
    by decide +kernel⟩

theorem witness_SealEndsTheBuildPhase : building.sealed = false ∧ ready.sealed = true := by decide +kernel

/-- Each of the three outcomes of the boot check. -/
theorem witness_SealStatusIsTheBootCheck :
    ∀ b ∈ [0x00#8, 0x02#8, 0x04#8, 0x06#8], let s := block tiny two b
      s.status &&& 0xF8#8 = 0 ∧ s.sealed = false ∧ exec .sealTable s = .next (out (exec .sealTable s)) ∧
      ∃ r, (out (exec .sealTable s)).resp[s.port]? = some r := by
  intro b hb
  simp only [List.mem_cons, List.not_mem_nil, or_false] at hb
  rcases hb with rfl | rfl | rfl | rfl <;> exact ⟨by decide +kernel, by decide +kernel, rfl, _, rfl⟩

theorem witness_BootSequenceMakesTheTableReady :
    let ts := [(3, ps adc, 3), (5, ps sec, 5)]
    tiny.Wf ∧ 1 < tiny.nLookupPorts ∧ ts.length ≤ tiny.nTemplates ∧ (ts.map (fun x => x.1)).Nodup ∧
    ∀ x ∈ ts, (Instr.register x.1 x.2.1 x.2.2).wellFormed tiny = true ∧ (compile tiny x.2.1).isSome := by
  decide +kernel

theorem witness_PatternsAreImmutable :
    let s := block tiny two 1#8 [.command 0 (encode (.supersede 3 9))]
    noReset s ∧ (∃ t, step s = .next t) ∧ 0 < s.count ∧ s.tbl[0]? = some (entryOf tiny 3 adc 3) := by
  intro s
  exact ⟨by simp [noReset, s, block], ⟨_, rfl⟩, by decide +kernel, by decide +kernel⟩

theorem witness_SealedTableIsFixed :
    let s := block tiny two 1#8 [.command 0 (encode (.register 9 (ps sec) 9))]
    s.sealed = true ∧ noReset s ∧ ∃ t, step s = .next t := by
  intro s
  exact ⟨by decide +kernel, by simp [noReset, s, block], _, rfl⟩

theorem witness_MalformedPatternsAreExactlyR72 : half.sealed = false ∧ compile half.cfg (ps "0000 0000") = none := by
  decide +kernel

theorem witness_CompiledTemplateSpellsThePattern : ∃ c, compile tiny (ps adc) = some c :=
  Option.isSome_iff_exists.mp (by decide +kernel)

theorem witness_SpacesCarryNoMeaning :
    (ps adc).len ≤ tiny.patMaxChars ∧ (ps "000111rdddddrrrr").len ≤ tiny.patMaxChars ∧
    (ps adc).chars.filter (fun ch => ch ≠ 0x20#8) = (ps "000111rdddddrrrr").chars.filter (fun ch => ch ≠ 0x20#8) := by
  decide +kernel

theorem witness_SlotIsThePositionInTheAlphabet :
    tiny.Wf ∧ Config.vectors.fieldAlphabet = asciiLetters ∧ 25 < 26 := by decide +kernel

theorem witness_SymbolsReadLittleEndianWords : 2 < 3 ∧ 15 < 16 := by decide

/-- `adc` matches `5F 1F`, with its two slots, each present. -/
theorem witness_matchEntry_hit :
    let e := entryOf tiny 3 adc 3
    ∃ a, matchEntry 2 e e1 2 = some a ∧ e.sym.length ≤ 48 ∧ a.fval[1]? = some 0x1F#48 ∧ 1 < 2 :=
  ⟨_, rfl, by decide +kernel, by decide +kernel, by decide⟩

/-- `sec` has neither letter: both slots are absent. -/
theorem witness_AbsentLettersReadZero :
    let e := entryOf tiny 5 sec 5
    1 < 2 ∧ (matchEntry 2 e (win 0x08 0x94) 2).isSome ∧ Symbol.field 1 ∉ e.sym := by decide +kernel

/-- A two-byte template, exactly its bytes against more of them, with another tail. -/
theorem witness_MatchReadsOnlyItsOwnBytes :
    let e := entryOf tiny 3 adc 3
    e.nsym ∈ patLengths ∧ e.sym.length = e.nsym ∧ e.nsym / 8 ≤ 2 ∧ e.nsym / 8 ≤ 6 ∧
    ∀ j, j < e.nsym / 8 → windowByte e1 j = windowByte { e1 with w2 := 0xAA, w5 := 0xBB } j := by decide +kernel

/-- The literal template `sec`: its own word, and a word one bit away (E8). -/
theorem witness_LiteralTemplatesRoundTrip :
    let e := entryOf tiny 5 sec 5
    (∀ x ∈ e.sym, isLiteral x = true) ∧ e.nsym / 8 ≤ 2 ∧
    (∀ i, i < e.sym.length → (e.sym[i]?.bind literalPart) = some (windowBit (win 0x08 0x94) i)) ∧
    e.sym[15]?.bind literalPart = some (!windowBit (win 0x09 0x94) 15) := by decide +kernel

/-- MATCH: before SEAL; faulted; one past the last index; a miss and a hit at the last index. -/
theorem witness_MatchAnswersForOneEntry :
    building.sealed = false ∧ ((block tiny two 3#8).sealed = true ∧ (block tiny two 3#8).cfgFault = true) ∧
    ready.Ready ∧ ready.count ≤ 2 ∧ 1 < ready.count ∧ ready.tbl[1]? = some (entryOf tiny 5 sec 5) ∧
    matchEntry ready.cfg.nSlots (entryOf tiny 5 sec 5) (win 0x09 0x94) (min (2#3).toNat 6) = none ∧
    (matchEntry ready.cfg.nSlots (entryOf tiny 5 sec 5) (win 0x08 0x94) (min (2#3).toNat 6)).isSome := by
  decide +kernel

/-- RESOLVE: before SEAL; faulted; a miss; a hit. -/
theorem witness_ResolveAnswersWithTheFirstMatch :
    building.sealed = false ∧ ((block tiny two 3#8).sealed = true ∧ (block tiny two 3#8).cfgFault = true) ∧
    ready.Ready ∧ ready.resolve? (win 0x1F 0x5F) (min (2#3).toNat 6) = none ∧
    (ready.resolve? e1 (min (7#3).toNat 6)).isSome := by decide +kernel

theorem witness_ResolveReturnsTheMostSpecific :
    ∃ t r, exec (.resolve e1 2) ready = .next t ∧ t.resp[ready.port]? = some r ∧ ready.port < ready.resp.length ∧
      r.hit = true := ⟨_, _, rfl, rfl, by decide +kernel, by decide +kernel⟩

/-- Two entries with the same literals: the same pattern with the letters exchanged. -/
def shadowed : State := block tiny [entryOf tiny 3 adc 3, entryOf tiny 5 "0001 11dr rrrr dddd" 5] 1#8

theorem witness_ShadowedEntriesAreNeverReturned_invariant : shadowed.Wf := by decide +kernel

theorem witness_ShadowedEntriesAreNeverReturned :
    0 < 1 ∧ 1 < shadowed.count ∧ shadowed.tbl[0]? = some (entryOf tiny 3 adc 3) ∧
    shadowed.tbl[1]? = some (entryOf tiny 5 "0001 11dr rrrr dddd" 5) ∧
    (entryOf tiny 3 adc 3).sym.map literalPart = (entryOf tiny 5 "0001 11dr rrrr dddd" 5).sym.map literalPart := by
  decide +kernel

/-- Two entries with the same symbols: the first matches every window the second matches. -/
theorem witness_ShadowedEntriesAreNeverReturned_order :
    let s := block tiny [entryOf tiny 3 adc 3, { entryOf tiny 3 adc 3 with mid := 5 }] 1#8
    0 < s.count ∧ 1 < s.count ∧ before s 0 1 ∧ ∀ w n, matchesAt s w n 1 → matchesAt s w n 0 := by
  refine ⟨by decide +kernel, by decide +kernel, by unfold before; decide +kernel, ?_⟩
  rintro w n ⟨e, a, h⟩
  obtain ⟨e', a', he, ha, -⟩ := matchAt_eq_some.mp h
  cases he
  exact ⟨entryOf tiny 3 adc 3, a', matchAt_eq_some.mpr ⟨_, _, rfl, ha, rfl⟩⟩

/-- Two blocks with the same table that differ in a response, an unregistered entry and the port. -/
theorem witness_ResolveIsDeterministicAndIdempotent :
    let t := { out (exec .nop ready) with port := 1 }
    ready.cfg = t.cfg ∧ ready.count = t.count ∧ ready.status = t.status ∧ ready.registered = t.registered ∧
    min (7#3).toNat 6 = min (6#3).toNat 6 ∧ ready.port < ready.resp.length ∧ t.port < t.resp.length ∧
    (∃ s', exec (.resolve e1 7) ready = .next s') ∧ ∃ t', exec (.resolve e1 6) t = .next t' :=
  ⟨by decide +kernel, by decide +kernel, by decide +kernel, by decide +kernel, by decide, by decide +kernel,
    by decide +kernel, ⟨_, rfl⟩, _, rfl⟩

theorem witness_ResolveIsDeterministicAndIdempotent_again :
    ∃ s' t t', exec (.resolve e1 2) ready = .next s' ∧ ByLookups s' t ∧ exec (.resolve e1 2) t = .next t' :=
  ⟨_, _, _, rfl, .tail _ _ _ (.matchTemplate 1 e1 2) (.refl _) trivial rfl, rfl⟩

theorem witness_HitReportsTheTemplateLength :
    ∃ t r e, ready.Wf ∧ exec (.resolve e1 2) ready = .next t ∧ t.resp[ready.port]? = some r ∧
      ready.port < ready.resp.length ∧ ready.Ready ∧ r.hit = true ∧ ready.tbl[r.tidx]? = some e :=
  ⟨_, _, entryOf tiny 3 adc 3, by decide +kernel, rfl, rfl, by decide +kernel, by decide +kernel, by decide +kernel,
    by decide +kernel⟩

/-- Three valid bytes, the same three and another tail; one valid byte. -/
theorem witness_OnlyValidWindowBytesMatter :
    (ready.Wf ∧ ∀ j, j < min (3#3).toNat 6 → windowByte e1 j = windowByte { e1 with w3 := 0xAA } j) ∧
    ready.Ready ∧ (1#3).toNat < 2 ∧ 1 < ready.count := by decide +kernel

theorem witness_ResponseGoesToTheServedPort :
    (∃ t, exec (.register 9 (ps adc) 1) half = .next t) ∧ 1 ≠ half.port ∧ half.port < half.resp.length ∧
    (List.replicate 2 (Resp.zero 2 .illegalCommand)).length = half.resp.length :=
  ⟨⟨_, rfl⟩, by decide +kernel, by decide +kernel, by decide +kernel⟩

theorem witness_LookupsWriteOnlyResp :
    (isLookup (.matchTemplate 1 e1 2) ∧ ∃ t, exec (.matchTemplate 1 e1 2) ready = .next t) ∧
    isLookup (.resolve e1 2) ∧ ∃ t, exec (.resolve e1 2) ready = .next t := ⟨⟨trivial, _, rfl⟩, trivial, _, rfl⟩

/-- An error of each kind: a rejected REGISTER, a missed SUPERSEDE, and a lookup's `BAD_INDEX`. -/
theorem witness_ErrorsArePrecise :
    ∀ i ∈ [Instr.register 9 (ps sec) 9, .supersede 15 0, .matchTemplate 2 e1 2],
      ready.port < ready.resp.length ∧ exec i ready = .next (out (exec i ready)) ∧
      ∃ r, (out (exec i ready)).resp[ready.port]? = some r ∧ r.rc ≠ .ok := by
  intro i hi
  simp only [List.mem_cons, List.not_mem_nil, or_false] at hi
  rcases hi with rfl | rfl | rfl <;> exact ⟨by decide +kernel, rfl, _, rfl, by decide +kernel⟩

/-- The free slot of `half` holds another value. -/
theorem witness_UnregisteredEntriesAreUnobservable :
    let s := { half with input := [.command 0 (encode (.register 5 (ps sec) 5))] }
    let t := { s with tbl := s.tbl.set 1 (entryOf tiny 7 sec 7) }
    sameButUnregistered s t ∧ s ≠ t ∧ ∃ s', step s = .next s' :=
  ⟨⟨rfl, rfl, rfl, rfl, rfl, rfl, by decide +kernel, by decide +kernel⟩, by decide +kernel, _, rfl⟩

/-- An emitter that finds the target 0 at address 2, and none elsewhere, and writes the tag; address 4 is data. -/
def env1 : Environment :=
  { classify := fun _ a => if a = 4 then 3 else 0, text := fun tag _ _ _ => (if tag = 9 then "nine" else "other", ""),
    target := fun _ _ _ _ a => if a = 2 then some 0 else none, nameFor := fun _ => none, synthName := fun _ => "" }

/-- `adc` twice, data, and bytes no template matches. -/
def reads1 : Reads := Reads.quiet [0x5F, 0x1F, 0x5F, 0x1F, 0xAA, 0xBB, 0xCC, 0xFF, 0xFF] (fun _ => 0x5A)

/-- R258 on one walk: between two hits on the same entry another port replaces its tag. -/
theorem test_tag_changes_within_a_walk :
    linesOf (driverWalk env1 [] [.mine reads1, .other (.command 1 (encode (.supersede 3 9))), .mine reads1] ready
      (driverStart 0 4 0 4)) =
    [.instruction { address := 0, byteLen := 2, mnemonic := "other", operands := "", tidx := 0 } [0x5F, 0x1F],
     .instruction { address := 2, byteLen := 2, mnemonic := "nine", operands := "", tidx := 0 } [0x5F, 0x1F]] := by
  decide +kernel

/-- A hit, a data range, and a dump whose last byte lies past the buffer. -/
theorem witness_DriverAlwaysAdvances :
    ready.Wf ∧ (∃ t d', driverStep env1 reads1 [] ready (driverStart 0 9 0 9) = .running t d') ∧
    (0 < dataLength env1 reads1 (driverStart 0 9 4 9) ∧
      ∃ t d', driverStep env1 reads1 [] ready (driverStart 0 9 4 9) = .running t d') ∧
    dataLength env1 reads1 (driverStart 0 9 8 9) = 0 ∧
      ∃ t d', driverStep env1 reads1 [] ready (driverStart 0 9 8 9) = .running t d' :=
  ⟨by decide +kernel, ⟨_, _, rfl⟩, ⟨by decide +kernel, _, _, rfl⟩, by decide +kernel, _, _, rfl⟩

theorem witness_DriverStopsOnConfigurationFaults :
    let d := driverStart 1 9 8 9
    d.port < ready.cfg.nLookupPorts ∧ d.port < ready.resp.length ∧
    (driverStart 1 9 9 9).endAddr ≤ (driverStart 1 9 9 9).addr ∧
    (d.addr < d.endAddr ∧ dataLength env1 reads1 d = 0) ∧ building.sealed = false ∧
    ((block tiny two 3#8).sealed = true ∧ (block tiny two 3#8).cfgFault = true) ∧ ready.Ready := by decide +kernel

/-- Ten driver steps for nine bytes, and another user's SUPERSEDE among them. -/
def turns1 : List Turn := .other (.command 1 (encode (.supersede 3 9))) :: List.replicate 10 (.mine reads1)

theorem witness_ReadyWalkEndsDone :
    ready.Wf ∧ ready.Ready ∧ (driverStart 0 9 0 9).port < ready.cfg.nLookupPorts ∧
    (∀ e, Turn.other e ∈ turns1 → e.Harmless ready.cfg) ∧
    (driverStart 0 9 0 9).endAddr - (driverStart 0 9 0 9).addr < stepsOf turns1 := by
  refine ⟨by decide +kernel, by decide +kernel, by decide +kernel, fun e he => ?_, by decide +kernel⟩
  simp only [turns1, List.mem_cons, Turn.other.injEq, List.mem_replicate, reduceCtorEq, and_false, or_false] at he
  subst he
  exact ⟨by decide +kernel, fun _ _ _ h => by cases h⟩

/-- The first of two references to address 4, and none to address 5. -/
theorem witness_LabelsReflectTheRecords :
    let rs : List JumpCallRecord := [{ src := 16, dst := 4, kind := 6 }, { src := 2, dst := 4, kind := 7 }]
    firstReference rs 4 = some (16, 6) ∧ referencesTo rs 4 = [(16, 6), (2, 7)] ∧ firstReference rs 5 = none ∧
    (labelFor env1 rs 4).isSome = true ∧ labelFor env1 rs 5 = none := by decide

/-- `env1` with a name supplied for address 0 alone; any other name is written from the address. -/
def env2 : Environment :=
  { env1 with nameFor := fun a => if a = 0 then some ("start", some "entry") else none,
              synthName := fun a => if a = 4 then "L4" else "L" }

/-- R196: a supplied name with its comment, and a synthesized one. -/
theorem witness_LabelsReflectTheRecords_names :
    let rs : List JumpCallRecord := [{ src := 16, dst := 4, kind := 6 }, { src := 2, dst := 0, kind := 7 }]
    labelFor env2 rs 0 = some { address := 0, name := "start", comment := some "entry" } ∧
    labelFor env2 rs 4 = some { address := 4, name := "L4", comment := none } ∧
    env2.nameFor 0 = some ("start", some "entry") ∧ env2.nameFor 4 = none := by decide

/-- Data; a hit with a target, a hit with a label and no target; and a miss. -/
theorem witness_DriverEmitsRecordsOrDumps :
    0 < dataLength env1 reads1 (driverStart 0 9 4 9) ∧
    (∃ t d' q, driverStep env1 reads1 [] ready (driverStart 0 9 2 9) = .running t d' ∧
      t.resp[0]? = some q ∧ q.rc = .ok ∧ env1.target q.mid q.tag q.fmask q.fval 2 = some 0) ∧
    (∃ t d' q, driverStep env1 reads1 [{ src := 2, dst := 0, kind := 3 }] ready (driverStart 0 9 0 9) = .running t d' ∧
      t.resp[0]? = some q ∧ q.rc = .ok ∧ env1.target q.mid q.tag q.fmask q.fval 0 = none) ∧
    ∃ t d' q, driverStep env1 reads1 [] ready (driverStart 0 9 8 9) = .running t d' ∧ t.resp[0]? = some q ∧
      q.rc = .noMatch :=
  ⟨by decide +kernel, ⟨_, _, _, rfl, rfl, by decide +kernel, by decide +kernel⟩,
    ⟨_, _, _, rfl, rfl, by decide +kernel, by decide +kernel⟩, _, _, _, rfl, rfl, by decide +kernel⟩

/-- The whole buffer, and a window one byte past it; a step on the last byte that goes on, and one that faults; reads
that differ at `BUF_LEN` alone. -/
theorem witness_DriverStaysInTheBuffer :
    9 ≤ 9 ∧ 9 < 10 ∧ (∃ t d', driverStep env1 reads1 [] ready (driverStart 0 9 8 9) = .running t d') ∧
    dataLength env1 reads1 (driverStart 0 9 8 9) = 0 ∧
    (∃ t d', driverStep env1 reads1 [] building (driverStart 0 9 8 9) = .fault .wrongPhase t d') ∧
    (∀ a, a < 9 → reads1.sampled a = (if a < 9 then reads1.sampled a else 0xEE)) := by
  exact ⟨by decide, by decide, ⟨_, _, rfl⟩, by decide +kernel, ⟨_, _, rfl⟩, fun a h => by rw [if_pos h]⟩

/-- A view of the first two instructions on port 1, as it starts. -/
def view1 : View :=
  { policy := .preScan, scanFrom := 0, scan := driverStart 1 9 0 4, labels := [], display := driverStart 1 9 0 4,
    phase := .scanning }

theorem witness_LabelsComeFromTheViewsOwnCompleteScan :
    View.start? .preScan 1 9 0 4 0 4 = some view1 ∧
    (∀ v ∈ (World.mk ready [view1, view1]).views, v.Sound env1) ∧
    (∃ w', World.act env1 (World.mk ready [view1, view1]) (.view 1 reads1) = some w') ∧
    ∃ w', World.act env1 (World.mk ready [view1, view1]) (.event (.command 0 (encode .nop))) = some w' := by
  refine ⟨by decide +kernel, fun v hv => ?_, ⟨_, rfl⟩, _, rfl⟩
  simp only [List.mem_cons, List.not_mem_nil, or_false, or_self] at hv
  subst hv
  exact ⟨.refl, fun h => by simp [view1] at h, by decide, by decide⟩

/-- `view1` with its scan complete, about to show the instruction at `a`. -/
def shows1 (a : Nat) : View :=
  { view1 with scan := driverStart 1 9 4 4, display := driverStart 1 9 a 4, phase := .displaying }

/-- A view that scans; and one that displays and goes on, ends, faults, or asks for a port the block lacks. -/
theorem witness_LabelsComeFromTheViewsOwnCompleteScan_display :
    view1.phase ≠ .displaying ∧ (shows1 0).phase = .displaying ∧
    (∃ t d, driverStep env1 reads1 (shows1 0).labels ready (shows1 0).display = .running t d) ∧
    (∃ t d, driverStep env1 reads1 (shows1 4).labels ready (shows1 4).display = .done t d) ∧
    (∃ t d, driverStep env1 reads1 (shows1 0).labels building (shows1 0).display = .fault .wrongPhase t d) ∧
    driverStep env1 reads1 [] ready (driverStart 2 9 0 4) = .noAnswer :=
  ⟨by decide, rfl, ⟨_, _, rfl⟩, ⟨_, _, rfl⟩, ⟨_, _, rfl⟩, by decide +kernel⟩

/-- The scan finds the jump at 2 before the label of its target 0 is shown: the first line is the label. -/
theorem test_view_labels_the_target_of_a_later_jump :
    ((World.run env1 (World.mk ready [view1]) (List.replicate 4 (.view 0 reads1))).map
      (fun w => w.views.map (fun v => (v.phase, v.display.output.head?)))) =
    some [(.displaying, some (.label { address := 0, name := "", comment := none } (some (2, 3))))] := by
  decide +kernel

/-- Between the SUPERSEDE and the hit: a driver step with a hit on the same entry, a SUPERSEDE of another identifier,
and another user's RESOLVE. -/
def between1 : List Turn :=
  [.mine reads1, .other (.command 0 (encode (.supersede 5 1))), .other (.command 1 (encode (.resolve e1 6#3)))]

theorem witness_ShownTagsFollowTheCommandOrder :
    ∃ t u d' d'' q, (ready.registered.map Entry.mid).Nodup ∧ 0 < ready.count ∧
      ready.tbl[0]? = some (entryOf tiny 3 adc 3) ∧
      decode ready.cfg (encode (.supersede 3 9)) = .supersede (entryOf tiny 3 adc 3).mid 9 ∧
      (∀ ev, Turn.other ev ∈ between1 → leavesTag ready.cfg (entryOf tiny 3 adc 3).mid ev) ∧
      driverWalk env1 [] (.other (.command 1 (encode (.supersede 3 9))) :: between1) ready (driverStart 0 9 0 9) =
        .running t d' ∧
      dataLength env1 reads1 d' = 0 ∧ driverStep env1 reads1 [] t d' = .running u d'' ∧ u.resp[d'.port]? = some q ∧
      q.rc = .ok ∧ q.tidx = 0 := by
  refine ⟨_, _, _, _, _, by decide +kernel, by decide +kernel, by decide +kernel, by decide +kernel, fun ev h => ?_, rfl,
    by decide +kernel, rfl, rfl, by decide +kernel, by decide +kernel⟩
  simp only [between1, List.mem_cons, reduceCtorEq, Turn.other.injEq, List.not_mem_nil, or_false, false_or] at h
  rcases h with rfl | rfl <;> intro tag h <;> revert h
  · simp only [show decode ready.cfg (encode (.supersede 5 1)) = .supersede 5 1 by decide +kernel,
      show (entryOf tiny 3 adc 3).mid = 3 by decide +kernel, Instr.supersede.injEq]
    omega
  · exact fun h => by cases h

end Sys2Proof.Tests
end

/-! Every step keeps the block's invariant (R9, R22, R23, R28, R31, R82, R104): each piece of it under each
update of the state, then each command, then the step. -/

namespace Sys2Proof.Machine

/-! ## Widths (R8, R9, R79) -/

/-- `ceil(log2 n)` bits tell `n` values apart (R9). -/
theorem le_two_pow_clog2 (n : Nat) : n ≤ 2 ^ clog2 n := by
  unfold clog2
  split
  · simpa
  · have : n - 1 < 2 ^ (Nat.log2 (n - 1) + 1) := Nat.lt_log2_self
    omega

/-- An index into the table fits `TIDX_W` bits. -/
theorem index_lt_two_pow_tidxW {cfg : Config} {k : Nat} (h : k < cfg.nTemplates) : k < 2 ^ cfg.tidxW :=
  calc k < cfg.nTemplates := h
    _ ≤ 2 ^ clog2 cfg.nTemplates := le_two_pow_clog2 _
    _ ≤ 2 ^ cfg.tidxW := Nat.pow_le_pow_right (by decide) (Nat.le_max_right ..)

/-- A number of registered entries fits `CNT_W` bits. -/
theorem count_lt_two_pow_cntW {cfg : Config} {n : Nat} (h : n ≤ cfg.nTemplates) : n < 2 ^ cfg.cntW :=
  calc n < cfg.nTemplates + 1 := Nat.lt_succ_of_le h
    _ ≤ 2 ^ cfg.cntW := le_two_pow_clog2 _

/-- What a REGISTER decoded from a port carries fits `arg_mid` and `arg_tag` (R79). -/
theorem decode_register_fits {cfg : Config} {σ : Signals} {mid tag : Nat} {p : PatStr}
    (h : decode cfg σ = .register mid p tag) : mid < 2 ^ cfg.midW ∧ tag < 2 ^ cfg.tagW := by
  unfold decode at h
  split at h <;> cases h
  exact ⟨Nat.mod_lt _ (Nat.two_pow_pos _), Nat.mod_lt _ (Nat.two_pow_pos _)⟩

/-- What a SUPERSEDE decoded from a port carries as tag fits `arg_tag` (R79). -/
theorem decode_supersede_fits {cfg : Config} {σ : Signals} {mid tag : Nat}
    (h : decode cfg σ = .supersede mid tag) : tag < 2 ^ cfg.tagW := by
  unfold decode at h
  split at h <;> cases h
  exact Nat.mod_lt _ (Nat.two_pow_pos _)

/-! ## Entries -/

theorem symbolOf_symFits {cfg : Config} {ch : Byte} {x : Symbol} (h : symbolOf cfg ch = some x) :
    symFits cfg.nSlots x = true := by
  unfold symbolOf at h
  split at h
  · cases h; rfl
  · split at h
    · cases h; rfl
    · obtain ⟨k, hk, rfl⟩ := Option.map_eq_some_iff.mp h
      simpa [symFits] using slotOf_lt hk

/-- The stored symbols of a string name slots of the alphabet (R78, R103). -/
theorem symbolsOf_symFits {cfg : Config} {l : List Byte} {xs : List Symbol} (h : symbolsOf cfg l = some xs) :
    ∀ x ∈ xs, symFits cfg.nSlots x = true := by
  have hall := symbolsOf_some h
  clear h
  generalize l.filter (fun ch => ch ≠ 0x20#8) = chars at hall
  induction hall with
  | nil => simp
  | cons hx _ ih => exact List.forall_mem_cons.mpr ⟨symbolOf_symFits hx, ih⟩

/-- What REGISTER writes is a well-formed entry (R22, R74, R75, R103). -/
theorem entry_wf_of_compile {cfg : Config} {p : PatStr} {c : Compiled} {mid tag : Nat} (h : compile cfg p = some c)
    (hmid : mid < 2 ^ cfg.midW) (htag : tag < 2 ^ cfg.tagW) :
    ({ mid := mid, tag := tag, nsym := c.nsym, spec := c.spec, sym := c.sym } : Entry).Wf cfg := by
  obtain ⟨-, hsym, hnsym, hspec, hlen⟩ := compile_some h
  exact ⟨hlen, hnsym.symm, hspec, symbolsOf_symFits hsym, hmid, htag⟩

theorem entry_retag_wf {cfg : Config} {e : Entry} {tag : Nat} (h : e.Wf cfg) (htag : tag < 2 ^ cfg.tagW) :
    ({ e with tag := tag } : Entry).Wf cfg := by
  obtain ⟨hlen, hnsym, hspec, hsym, hmid, -⟩ := h
  exact ⟨hlen, hnsym, hspec, hsym, hmid, htag⟩

/-! ## Responses (R82, R136) -/

/-- A response without a hit is well-formed: all it can carry beside its code are an index and the bytes to skip. -/
theorem resp_zero_wf {cfg : Config} (rc : RespCode) {k n : Nat} (hk : k < 2 ^ cfg.tidxW) (hn : n ∈ [0, 2, 4, 6]) :
    ({ Resp.zero cfg.nSlots rc with tidx := k, consume := n } : Resp).Wf cfg := by
  simpa [Resp.Wf, Resp.zero, hk] using hn

theorem blank_tidx_wf (s : State) (rc : RespCode) {k : Nat} (hk : k < s.cfg.nTemplates) :
    ({ s.blank rc with tidx := k } : Resp).Wf s.cfg :=
  resp_zero_wf rc (n := 0) (index_lt_two_pow_tidxW hk) (by decide)

theorem blank_wf (s : State) (rc : RespCode) : (s.blank rc).Wf s.cfg :=
  resp_zero_wf rc (Nat.two_pow_pos _) (by decide)

/-- The mask of a match has bits of slots of the alphabet alone (R133). -/
theorem matchEntry_present_lt {cfg : Config} {e : Entry} {w : Window} {v : Nat} {a : Acc}
    (he : ∀ x ∈ e.sym, symFits cfg.nSlots x = true) (h : matchEntry cfg.nSlots e w v = some a) :
    a.present < 2 ^ cfg.nSlots := by
  obtain ⟨-, -, rfl⟩ := matchEntry_eq_some.mp h
  refine Nat.lt_pow_two_of_testBit _ fun d hd => ?_
  have habsent : Symbol.field d ∉ e.sym := fun hm => by
    have := he _ hm
    simp only [symFits, decide_eq_true_eq] at this
    omega
  simp [pushAll_testBit, Acc.clear, habsent]

/-- A letter whose mask bit is clear has value 0 after a match (R136). -/
theorem matchEntry_absent {n : Nat} {e : Entry} {w : Window} {v c : Nat} {a : Acc}
    (h : matchEntry n e w v = some a) (hc : a.present.testBit c = false) : a.fval.getD c 0 = 0 := by
  obtain ⟨-, -, rfl⟩ := matchEntry_eq_some.mp h
  have habsent : Symbol.field c ∉ e.sym := by simpa [pushAll_testBit, Acc.clear] using hc
  rw [List.getD_eq_getElem?_getD, pushAll_absent habsent]
  simp only [Acc.clear, List.getElem?_replicate]
  split <;> rfl

theorem matchEntry_fval_length {n : Nat} {e : Entry} {w : Window} {v : Nat} {a : Acc}
    (h : matchEntry n e w v = some a) : a.fval.length = n := by
  obtain ⟨-, -, rfl⟩ := matchEntry_eq_some.mp h
  simp [Acc.clear]

/-- A template is 2, 4 or 6 bytes long (R74, R76). -/
theorem byteLen_of_patLengths {nsym : Nat} (h : nsym ∈ patLengths) : byteLen nsym ∈ [2, 4, 6] := by
  simp only [List.mem_cons, List.not_mem_nil, or_false] at h
  rcases h with rfl | rfl | rfl <;> decide

/-- A template has at most 48 literals, as it has at most 48 symbols (R74, R75). -/
theorem Entry.Wf.spec_le {cfg : Config} {e : Entry} (h : e.Wf cfg) : e.spec ≤ 48 := by
  obtain ⟨hlen, hnsym, hspec, -⟩ := h
  have hle : specificity e.sym ≤ e.sym.length := List.countP_le_length
  simp only [List.mem_cons, List.not_mem_nil, or_false] at hlen
  omega

/-- A hit on a well-formed entry gives a well-formed response (R137, R163). -/
theorem hitResp_wf {cfg : Config} {e : Entry} {w : Window} {v k : Nat} {a : Acc} (he : e.Wf cfg)
    (hk : k < cfg.nTemplates) (h : matchEntry cfg.nSlots e w v = some a) : (hitResp k e a).Wf cfg := by
  have hspec := he.spec_le
  obtain ⟨hlen, -, -, hsym, hmid, htag⟩ := he
  have hbytes := byteLen_of_patLengths hlen
  have hbytes0 : byteLen e.nsym ∈ [0, 2, 4, 6] := List.mem_cons_of_mem _ hbytes
  exact ⟨index_lt_two_pow_tidxW hk, hmid, htag, hbytes0, hbytes0, hspec, matchEntry_present_lt hsym h,
    matchEntry_fval_length h, BitVec.zero_and, Nat.two_pow_pos _, fun _ => ⟨rfl, hbytes, rfl⟩, nofun,
    fun _ _ hc => matchEntry_absent h hc⟩

/-- `STATUS` and `COUNT` as a well-formed state has them keep a response well-formed (R28, R82). -/
theorem resp_stamp_wf {cfg : Config} {r : Resp} {status : BitVec 8} {count : Nat} (h : r.Wf cfg)
    (hstatus : status &&& 0xF8#8 = 0) (hcount : count ≤ cfg.nTemplates) :
    ({ r with status := status, count := count } : Resp).Wf cfg := by
  obtain ⟨htidx, hmid, htag, hlen, hconsume, hspec, hmask, hfval, -, -, hhit, hmiss, habsent⟩ := h
  exact ⟨htidx, hmid, htag, hlen, hconsume, hspec, hmask, hfval, hstatus, count_lt_two_pow_cntW hcount, hhit, hmiss,
    habsent⟩

/-! ## Updates of the state -/

/-- The block right after reset is well-formed (R33). -/
theorem initial_wf {cfg : Config} (h : cfg.Wf) : (State.initial cfg).Wf := by
  refine ⟨h, by simp, by simp, by simp [State.registered], by simp [State.registered], BitVec.zero_and, by simp,
    fun r hr => ?_⟩
  rw [List.eq_of_mem_replicate hr]
  exact resp_zero_wf .ok (Nat.two_pow_pos _) (by decide)

/-- Setting a bit of `STATUS` that is not reserved keeps the invariant (R25, R28). -/
theorem setStatus_wf {s : State} {b : BitVec 8} (h : s.Wf) (hb : b &&& 0xF8#8 = 0) :
    ({ s with status := s.status ||| b } : State).Wf := by
  obtain ⟨hcfg, htbl, hcount, hentries, hmids, hstatus, hports, hresp⟩ := h
  have hor : (s.status ||| b) &&& 0xF8#8 = 0 := by
    rw [BitVec.and_comm, BitVec.and_or_distrib_left, BitVec.and_comm _ b, hb, BitVec.and_comm, hstatus]; rfl
  exact ⟨hcfg, htbl, hcount, hentries, hmids, hor, hports, hresp⟩

/-- Appending an entry of a new identifier keeps the invariant while the table has room (R102, R104). -/
theorem append_wf {s : State} {e : Entry} (h : s.Wf) (he : e.Wf s.cfg) (hnew : s.findMid e.mid = none)
    (hroom : s.count ≠ s.cfg.nTemplates) : (s.append e).Wf := by
  obtain ⟨hcfg, htbl, hcount, hentries, hmids, hstatus, hports, hresp⟩ := h
  have hreg : (s.append e).registered = s.registered ++ [e] := registered_append s e (by omega)
  refine ⟨hcfg, by simpa using htbl, by simp only [append_count, append_cfg]; omega, ?_, ?_, hstatus, hports, hresp⟩
  · rw [hreg]
    exact List.forall_mem_append.mpr ⟨hentries, by simpa using he⟩
  · rw [hreg, List.map_append]
    refine List.Nodup.append hmids (List.nodup_singleton _) ?_
    simpa using (findMid_eq_none s).mp hnew

/-- Replacing a tag by one that fits keeps the invariant: the identifiers stay (R104, R107). -/
theorem retag_wf {s : State} {k tag : Nat} (h : s.Wf) (htag : tag < 2 ^ s.cfg.tagW) : (s.retag k tag).Wf := by
  obtain ⟨hcfg, htbl, hcount, hentries, hmids, hstatus, hports, hresp⟩ := h
  refine ⟨hcfg, by simpa using htbl, hcount, fun e he => ?_, by rwa [mids_retag], hstatus, hports, hresp⟩
  rw [registered_retag] at he
  obtain ⟨j, hj⟩ := List.mem_iff_getElem?.mp he
  rw [List.getElem?_modify] at hj
  obtain ⟨e₀, he₀, rfl⟩ := Option.map_eq_some_iff.mp hj
  have hwf₀ := hentries e₀ (List.mem_of_getElem? he₀)
  split
  · exact entry_retag_wf hwf₀ htag
  · exact hwf₀

/-- Responding with a well-formed response keeps the invariant: the other ports keep theirs (R31, R235). -/
theorem respond_wf {s : State} {r : Resp} (h : s.Wf) (hr : r.Wf s.cfg) : (s.respond r).Wf := by
  obtain ⟨hcfg, htbl, hcount, hentries, hmids, hstatus, hports, hresp⟩ := h
  refine ⟨hcfg, htbl, hcount, hentries, hmids, hstatus, by simpa using hports, fun q hq => ?_⟩
  rcases List.mem_or_eq_of_mem_set hq with hq | rfl
  · exact hresp q hq
  · exact resp_stamp_wf hr hstatus hcount

/-! ## What the invariant says of the registered entries -/

theorem State.Wf.count_le {s : State} (h : s.Wf) : s.count ≤ s.cfg.nTemplates := by
  obtain ⟨-, -, hcount, -⟩ := h
  exact hcount

/-- An index that `entry?` answers at is an index into the table, and the entry there is well-formed. -/
theorem State.Wf.of_entry? {s : State} {k : Nat} {e : Entry} (h : s.Wf) (he : s.entry? k = some e) :
    k < s.cfg.nTemplates ∧ e.Wf s.cfg := by
  have hcount := h.count_le
  obtain ⟨-, -, -, hentries, -⟩ := h
  exact ⟨Nat.lt_of_lt_of_le ((entry?_eq_some s).mp he).1 hcount, hentries e (entry?_mem s he)⟩

/-! ## Commands and steps -/

/-- Every command whose operands fit the port keeps the invariant, by what a command can do (`exec_cases`). -/
theorem exec_wf {i : Instr} {s t : State} (hwf : s.Wf)
    (hreg : ∀ mid p tag, i = .register mid p tag → mid < 2 ^ s.cfg.midW ∧ tag < 2 ^ s.cfg.tagW)
    (hsup : ∀ mid tag, i = .supersede mid tag → tag < 2 ^ s.cfg.tagW) (h : exec i s = .next t) : t.Wf := by
  obtain ⟨u, r, rfl, hcase⟩ := exec_cases h
  rcases hcase with ⟨rfl, -, hr⟩ | ⟨-, -, rfl, rfl⟩ | ⟨mid, p, tag, rc, -, rfl, rfl, -⟩ |
    ⟨mid, tag, -, -, rfl, rfl⟩ | ⟨mid, p, tag, c, hi, -, hc, hnew, hroom, rfl, rfl⟩ | ⟨mid, tag, k, hi, hk, rfl, rfl⟩
  · refine respond_wf hwf ?_
    rcases hr with ⟨rc, rfl, -⟩ | rfl | ⟨w, n, k, e, a, hm, rfl⟩
    · exact blank_wf u rc
    · exact resp_zero_wf .noMatch (Nat.two_pow_pos _) (by decide)
    · obtain ⟨e, a, he, ha, hx⟩ := matchAt_eq_some.mp hm
      cases hx
      obtain ⟨hk, hentry⟩ := hwf.of_entry? he
      exact hitResp_wf hentry hk ha
  · exact respond_wf (setStatus_wf hwf rfl) (blank_wf s .ok)
  · exact respond_wf (setStatus_wf hwf rfl) (blank_wf s rc)
  · exact respond_wf (setStatus_wf hwf rfl) (blank_wf s .supersedeTargetMissing)
  · obtain ⟨hmid, htag⟩ := hreg mid p tag hi
    have hroom' : s.count < s.cfg.nTemplates := Nat.lt_of_le_of_ne hwf.count_le hroom
    exact respond_wf (append_wf hwf (entry_wf_of_compile hc hmid htag) hnew hroom) (blank_tidx_wf s .ok hroom')
  · obtain ⟨e, he, -⟩ := findMid_some s hk
    obtain ⟨hlt, -⟩ := hwf.of_entry? he
    exact respond_wf (retag_wf hwf (hsup mid tag hi)) (blank_tidx_wf s .ok hlt)

/-- Every step keeps the invariant: the state stays, starts over, or executes a command that a port can carry. -/
theorem step_wf {s t : State} (hwf : s.Wf) (h : step s = .next t) : t.Wf := by
  rcases step_cases h with ⟨-, rfl⟩ | ⟨p, rest, -, -, rfl⟩ | ⟨p, σ, rest, -, -, hexec⟩
  · exact hwf
  · obtain ⟨hcfg, -⟩ := hwf
    exact initial_wf hcfg
  · exact exec_wf (s := { s with port := p, input := rest }) hwf (fun _ _ _ => decode_register_fits)
      (fun _ _ => decode_supersede_fits) hexec

/-- Settles O14, by the inversion of a step: a reset starts over from a well-formed state, and each command keeps the
invariant, with its response, by one lemma per update. -/
theorem everyStepKeepsWellFormedness : Obligations.EveryStepKeepsWellFormedness :=
  fun _ _ hwf h => step_wf hwf h

end Sys2Proof.Machine

section
/-! The state of the block: its value after reset (R33), what no step but a reset undoes (R25, R38), and what a command
reads and writes (R31, R37, R235). A command reads the parameters, `COUNT`, `STATUS` and the registered entries alone
(`SameReads`); from them it chooses one `Update` and one response (`exec_uniform`). -/

namespace Sys2Proof.Machine

open Sys2Proof.Stated

/-! ## After reset (R29, R33) -/

/-- A match attempt that has enough bytes starts from the clear accumulator (R29, R130). -/
theorem matchEntry_of_le {nSlots : Nat} {e : Entry} {w : Window} {n : Nat} (h : byteLen e.nsym ≤ n) :
    matchEntry nSlots e w n = matchSyms w 0 e.sym (Acc.clear nSlots) :=
  if_neg (by omega)

/-- The response of each port right after reset (R33). -/
theorem initial_resp_getElem? {cfg : Config} {p : Nat} (h : p < cfg.nLookupPorts) :
    (State.initial cfg).resp[p]? = some (codeOnly (State.initial cfg) .ok) := by
  rw [initial_resp, List.getElem?_replicate, if_pos h]
  rfl

/-- Settles O9, field by field of the state right after reset. -/
theorem resetStateIsTheSpecs : Obligations.ResetStateIsTheSpecs := by
  refine ⟨rfl, fun cfg => ?_, fun nSlots e w n h => matchEntry_of_le h⟩
  exact ⟨rfl, rfl, by simp [State.sealed], by simp [State.cfgFault], by simp [State.supersedeMiss], rfl, by simp,
    by simp, fun p hp => ⟨_, initial_resp_getElem? hp, rfl, rfl, rfl, rfl⟩⟩

/-! ## The status bits are sticky (R25) -/

/-- A command only ever sets bits of `STATUS`. -/
theorem exec_status_or {i : Instr} {s t : State} (h : exec i s = .next t) : ∃ b, t.status = s.status ||| b := by
  obtain ⟨u, r, rfl, hcase⟩ := exec_cases h
  rcases hcase with ⟨rfl, -⟩ | ⟨-, -, rfl, -⟩ | ⟨mid, p, tag, rc, -, rfl, -⟩ | ⟨mid, tag, -, -, rfl, -⟩ |
    ⟨mid, p, tag, c, -, -, -, -, -, -, rfl⟩ | ⟨mid, tag, k, -, -, -, rfl⟩
  · exact ⟨0, by simp⟩
  · exact ⟨_, setSealed_status s⟩
  · exact ⟨_, setCfgFault_status s⟩
  · exact ⟨_, setSupersedeMiss_status s⟩
  · exact ⟨0, by simp⟩
  · exact ⟨0, by simp⟩

/-- A step without a reset only ever sets bits of `STATUS`. -/
theorem step_status_or {s t : State} (h : step s = .next t) (hr : noReset s) : ∃ b, t.status = s.status ||| b := by
  rcases step_cases h with ⟨-, rfl⟩ | ⟨p, rest, hrst, -, -⟩ | ⟨p, σ, rest, -, -, hexec⟩
  · exact ⟨0, by simp⟩
  · exact absurd hrst (hr p rest)
  · exact exec_status_or (s := { s with port := p, input := rest }) hexec

/-- Settles O11: a step without a reset changes `STATUS` by setting bits, so a bit that is set stays. -/
theorem onlyResetClearsStatusBits : Obligations.OnlyResetClearsStatusBits := by
  intro s t h hr
  obtain ⟨b, hb⟩ := step_status_or h hr
  have hbit (j : Nat) (hj : s.status.getLsbD j = true) : t.status.getLsbD j = true := by
    rw [hb, BitVec.getLsbD_or, hj, Bool.true_or]
  exact ⟨hbit 0, hbit 1, hbit 2⟩

/-! ## Registered entries keep their pattern (R23, R38) -/

/-- A command never lowers `COUNT`. -/
theorem exec_count_le {i : Instr} {s t : State} (h : exec i s = .next t) : s.count ≤ t.count := by
  obtain ⟨u, r, rfl, hcase⟩ := exec_cases h
  rcases hcase with ⟨rfl, -⟩ | ⟨-, -, rfl, -⟩ | ⟨mid, p, tag, rc, -, rfl, -⟩ | ⟨mid, tag, -, -, rfl, -⟩ |
    ⟨mid, p, tag, c, -, -, -, -, -, -, rfl⟩ | ⟨mid, tag, k, -, -, -, rfl⟩ <;> simp

/-- What a command does to a registered entry: nothing, or SUPERSEDE of its identifier replaces its tag (R38). -/
theorem exec_registered_entry {i : Instr} {s t : State} {k : Nat} {e : Entry} (h : exec i s = .next t)
    (he : s.entry? k = some e) :
    t.tbl[k]? = some e ∨ ∃ tag, i = .supersede e.mid tag ∧ t.tbl[k]? = some { e with tag := tag } := by
  obtain ⟨hk, htbl⟩ := (entry?_eq_some s).mp he
  obtain ⟨u, r, rfl, hcase⟩ := exec_cases h
  rcases hcase with ⟨rfl, -⟩ | ⟨-, -, rfl, -⟩ | ⟨mid, p, tag, rc, -, rfl, -⟩ | ⟨mid, tag, -, -, rfl, -⟩ |
    ⟨mid, p, tag, c, -, -, -, -, -, -, rfl⟩ | ⟨mid, tag, j, hi, hj, -, rfl⟩
  · exact .inl htbl
  · exact .inl htbl
  · exact .inl htbl
  · exact .inl htbl
  · left
    rw [respond_tbl, append_tbl, List.getElem?_set_ne (by omega), htbl]
  · by_cases hjk : j = k
    · subst hjk
      obtain ⟨e', he', hmid⟩ := findMid_some s hj
      obtain rfl : e' = e := Option.some.inj (he'.symm.trans he)
      exact .inr ⟨tag, hmid ▸ hi, by simp [htbl]⟩
    · left
      rw [respond_tbl, retag_tbl, List.getElem?_modify_ne _ _ hjk, htbl]

/-- Settles O24, by what a command does to `COUNT` and to a registered entry. -/
theorem patternsAreImmutable : Obligations.PatternsAreImmutable := by
  intro s t k e hr h hk he
  rcases step_cases h with ⟨-, rfl⟩ | ⟨p, rest, hrst, -, -⟩ | ⟨p, σ, rest, hcmd, -, hexec⟩
  · exact ⟨le_rfl, e, he, rfl, rfl, rfl, rfl, .inl rfl⟩
  · exact absurd hrst (hr p rest)
  · refine ⟨exec_count_le (s := { s with port := p, input := rest }) hexec, ?_⟩
    rcases exec_registered_entry hexec ((entry?_eq_some _).mpr ⟨hk, he⟩) with hsame | ⟨tag, hi, hnew⟩
    · exact ⟨e, hsame, rfl, rfl, rfl, rfl, .inl rfl⟩
    · exact ⟨_, hnew, rfl, rfl, rfl, rfl, .inr ⟨p, σ, rest, tag, hcmd, hi, rfl⟩⟩

/-! ## What a command reads -/

/-- `t` agrees with `s` on everything a command reads to choose its update and its response: the parameters, `COUNT`,
`STATUS` and the registered entries; no `RESP`, and no entry at or above `COUNT` (R37). -/
structure SameReads (s t : State) : Prop where
  cfg : t.cfg = s.cfg
  count : t.count = s.count
  status : t.status = s.status
  registered : t.registered = s.registered

theorem SameReads.refl (s : State) : SameReads s s := ⟨rfl, rfl, rfl, rfl⟩

/-- No command reads an earlier response (R31). -/
theorem SameReads.of_resp (s : State) (old : List Resp) : SameReads s { s with resp := old } := ⟨rfl, rfl, rfl, rfl⟩

/-- The priority order lists the indices below `n`, each once (R160). -/
theorem priorityOrder_perm_range (spec : Nat → Nat) (n : Nat) : (priorityOrder spec n).Perm (List.range n) := by
  induction n with
  | zero => exact .refl _
  | succ n ih =>
    rw [priorityOrder_succ, List.range_succ]
    exact (orderInsert_perm spec n _).trans ((ih.cons n).trans (List.perm_append_singleton n _).symm)

theorem specAt_eq_elim {s : State} {k : Nat} (h : k < s.count) : s.specAt k = (s.entry? k).elim 0 Entry.spec := by
  rw [State.specAt, State.entry?, if_pos h]
  cases s.tbl[k]? <;> rfl

namespace SameReads

variable {s t : State} (h : SameReads s t)
include h

theorem sealed : t.sealed = s.sealed := by rw [State.sealed, h.status, State.sealed]

theorem cfgFault : t.cfgFault = s.cfgFault := by rw [State.cfgFault, h.status, State.cfgFault]

theorem blank (rc : RespCode) : t.blank rc = s.blank rc := by rw [State.blank, h.cfg, State.blank]

theorem findMid (mid : Nat) : t.findMid mid = s.findMid mid := by rw [State.findMid, h.registered, State.findMid]

theorem entry? (k : Nat) : t.entry? k = s.entry? k := entry?_congr h.registered k

/-- `ORDER` sorts by the specificities of registered entries alone (R30). -/
theorem order : t.order = s.order := by
  rw [State.order, h.count, State.order]
  refine priorityOrder_congr (fun m j hj => List.mem_range.mp ((priorityOrder_perm_range _ m).mem_iff.mp hj))
    fun k hk => ?_
  rw [specAt_eq_elim hk, specAt_eq_elim (h.count ▸ hk), h.entry?]

theorem matchAt (w : Window) (n k : Nat) : t.matchAt w n k = s.matchAt w n k := by
  rw [State.matchAt, h.entry?, h.cfg, State.matchAt]

theorem resolve? (w : Window) (n : Nat) : t.resolve? w n = s.resolve? w n := by
  simp only [State.resolve?, h.order, h.matchAt]

end SameReads

/-! ## What a command writes besides its response -/

/-- What a command does to the block besides responding. -/
inductive Update where
  | keep
  | setSealed
  | setCfgFault
  | setSupersedeMiss
  | append (e : Entry)
  | retag (k tag : Nat)

/-- The update, done by the model's own operations. -/
def Update.apply : Update → State → State
  | .keep, s => s
  | .setSealed, s => s.setSealed
  | .setCfgFault, s => s.setCfgFault
  | .setSupersedeMiss, s => s.setSupersedeMiss
  | .append e, s => s.append e
  | .retag k tag, s => s.retag k tag

@[simp] theorem Update.apply_port (f : Update) (s : State) : (f.apply s).port = s.port := by cases f <;> rfl

@[simp] theorem Update.apply_resp (f : Update) (s : State) : (f.apply s).resp = s.resp := by cases f <;> rfl

/-- An update does not look at the responses. -/
theorem Update.apply_of_resp (f : Update) (s : State) (old : List Resp) :
    f.apply { s with resp := old } = { f.apply s with resp := old } := by cases f <;> rfl

/-- Command `i` chooses in `s` one update and one response, with a code its rules allow (R227), and the same in every
state that reads as `s`. -/
def Uniform (i : Instr) (s : State) : Prop :=
  ∃ (f : Update) (r : Resp), r.rc ∈ allowedCodes i ∧ ∀ t, SameReads s t → exec i t = .next ((f.apply t).respond r)

@[simp] theorem blank_rc (s : State) (rc : RespCode) : (s.blank rc).rc = rc := rfl

@[simp] theorem hitResp_rc (k : Nat) (e : Entry) (a : Acc) : (hitResp k e a).rc = .ok := rfl

theorem uniform_of_respond {i : Instr} {s : State} {r : Resp} (hrc : r.rc ∈ allowedCodes i)
    (hexec : ∀ t, SameReads s t → exec i t = .next (t.respond r)) : Uniform i s := ⟨.keep, r, hrc, hexec⟩

theorem uniform_of_reject {i : Instr} {s : State} {rc : RespCode} (hrc : rc ∈ allowedCodes i)
    (hexec : ∀ t, SameReads s t → exec i t = .next (t.reject rc)) : Uniform i s :=
  ⟨.setCfgFault, s.blank rc, hrc, fun t h => by rw [hexec t h, State.reject, h.blank, Update.apply]⟩

theorem sealTable_uniform (s : State) : Uniform .sealTable s := by
  cases hs : s.sealed with
  | true =>
    exact uniform_of_respond (r := s.blank .wrongPhase) (by simp [allowedCodes]) fun t h => by
      simp [exec, execSealTable, h.sealed, hs, h.blank]
  | false =>
    refine ⟨.setSealed, s.blank .ok, by simp [allowedCodes], fun t h => ?_⟩
    simp [exec, execSealTable, h.sealed, hs, h.blank, Update.apply]

theorem supersede_uniform (mid tag : Nat) (s : State) : Uniform (.supersede mid tag) s := by
  cases hm : s.findMid mid with
  | none =>
    refine ⟨.setSupersedeMiss, s.blank .supersedeTargetMissing, by simp [allowedCodes], fun t h => ?_⟩
    simp [exec, execSupersede, h.findMid, hm, h.blank, Update.apply]
  | some k =>
    refine ⟨.retag k tag, { s.blank .ok with tidx := k }, by simp [allowedCodes], fun t h => ?_⟩
    simp [exec, execSupersede, h.findMid, hm, h.blank, Update.apply]

/-- REGISTER: a rejection for each check of R102 that fails, or the entry appended. -/
theorem register_uniform (mid : Nat) (p : PatStr) (tag : Nat) (s : State) : Uniform (.register mid p tag) s := by
  by_cases hs : s.sealed = true
  · exact uniform_of_reject (rc := .wrongPhase) (by simp [allowedCodes]) fun t h => by
      simp [exec, execRegister, h.sealed, hs]
  cases hc : compile s.cfg p with
  | none =>
    exact uniform_of_reject (rc := .malformedTemplate) (by simp [allowedCodes]) fun t h => by
      simp [exec, execRegister, h.sealed, hs, h.cfg, hc]
  | some c =>
    by_cases hm : (s.findMid mid).isSome
    · exact uniform_of_reject (rc := .duplicateMnemonic) (by simp [allowedCodes]) fun t h => by
        simp [exec, execRegister, h.sealed, hs, h.cfg, hc, h.findMid, hm]
    by_cases hn : s.count = s.cfg.nTemplates
    · exact uniform_of_reject (rc := .tableFull) (by simp [allowedCodes]) fun t h => by
        simp [exec, execRegister, h.sealed, hs, h.cfg, hc, h.findMid, hm, h.count, hn]
    · refine ⟨.append { mid := mid, tag := tag, nsym := c.nsym, spec := c.spec, sym := c.sym },
        { s.blank .ok with tidx := s.count }, by simp [allowedCodes], fun t h => ?_⟩
      simp [exec, execRegister, h.sealed, hs, h.cfg, hc, h.findMid, hm, h.count, hn, h.blank, Update.apply]

/-- MATCH: a code for each check of R137 that fails, or the hit. -/
theorem matchTemplate_uniform (k : Nat) (w : Window) (av : BitVec 3) (s : State) :
    Uniform (.matchTemplate k w av) s := by
  by_cases hs : s.sealed = true
  swap
  · exact uniform_of_respond (r := s.blank .wrongPhase) (by simp [allowedCodes]) fun t h => by
      simp [exec, execMatchTemplate, h.sealed, hs, h.blank]
  by_cases hf : s.cfgFault = true
  · exact uniform_of_respond (r := s.blank .configFaulted) (by simp [allowedCodes]) fun t h => by
      simp [exec, execMatchTemplate, h.sealed, hs, h.cfgFault, hf, h.blank]
  cases he : s.entry? k with
  | none =>
    exact uniform_of_respond (r := s.blank .badIndex) (by simp [allowedCodes]) fun t h => by
      simp [exec, execMatchTemplate, h.sealed, hs, h.cfgFault, hf, h.entry?, he, h.blank]
  | some e =>
    cases ha : matchEntry s.cfg.nSlots e w (validBytes av) with
    | none =>
      exact uniform_of_respond (r := s.blank .noMatch) (by simp [allowedCodes]) fun t h => by
        simp [exec, execMatchTemplate, h.sealed, hs, h.cfgFault, hf, h.entry?, he, h.cfg, ha, h.blank]
    | some a =>
      exact uniform_of_respond (r := hitResp k e a) (by simp [allowedCodes]) fun t h => by
        simp [exec, execMatchTemplate, h.sealed, hs, h.cfgFault, hf, h.entry?, he, h.cfg, ha]

/-- RESOLVE: a code for each check of R163 that fails, the miss, or the hit. -/
theorem resolve_uniform (w : Window) (av : BitVec 3) (s : State) : Uniform (.resolve w av) s := by
  by_cases hs : s.sealed = true
  swap
  · exact uniform_of_respond (r := s.blank .wrongPhase) (by simp [allowedCodes]) fun t h => by
      simp [exec, execResolve, h.sealed, hs, h.blank]
  by_cases hf : s.cfgFault = true
  · exact uniform_of_respond (r := s.blank .configFaulted) (by simp [allowedCodes]) fun t h => by
      simp [exec, execResolve, h.sealed, hs, h.cfgFault, hf, h.blank]
  cases hr : s.resolve? w (validBytes av) with
  | none =>
    exact uniform_of_respond (r := { s.blank .noMatch with consume := 2 }) (by simp [allowedCodes]) fun t h => by
      simp [exec, execResolve, h.sealed, hs, h.cfgFault, hf, h.resolve?, hr, h.blank]
  | some x =>
    obtain ⟨k, e, a⟩ := x
    exact uniform_of_respond (r := hitResp k e a) (by simp [allowedCodes]) fun t h => by
      simp [exec, execResolve, h.sealed, hs, h.cfgFault, hf, h.resolve?, hr]

/-- A command chooses its update and its response from what it reads alone. -/
theorem exec_uniform (i : Instr) (s : State) : Uniform i s := by
  cases i with
  | nop => exact uniform_of_respond (r := s.blank .ok) (by simp [allowedCodes]) fun t h => by rw [← h.blank]; rfl
  | register mid p tag => exact register_uniform mid p tag s
  | supersede mid tag => exact supersede_uniform mid tag s
  | sealTable => exact sealTable_uniform s
  | matchTemplate k w av => exact matchTemplate_uniform k w av s
  | resolve w av => exact resolve_uniform w av s
  | reserved110 =>
    exact uniform_of_respond (r := s.blank .illegalCommand) (by simp [allowedCodes]) fun t h => by
      rw [← h.blank]; rfl
  | reserved111 =>
    exact uniform_of_respond (r := s.blank .illegalCommand) (by simp [allowedCodes]) fun t h => by
      rw [← h.blank]; rfl

/-- A command that answers `t` got there by its update and its response, and does the same in every state that reads
as `s`. -/
theorem exec_uniform_of_next {i : Instr} {s t : State} (h : exec i s = .next t) :
    ∃ (f : Update) (r : Resp), t = (f.apply s).respond r ∧ r.rc ∈ allowedCodes i ∧
      ∀ u, SameReads s u → exec i u = .next ((f.apply u).respond r) := by
  obtain ⟨f, r, hrc, huniform⟩ := exec_uniform i s
  exact ⟨f, r, Host.Outcome.next.inj (h.symm.trans (huniform s (.refl s))), hrc, huniform⟩

/-! ## The response goes to the served port (R31, R235) -/

/-- Settles O47: the update and the response are chosen without reading `RESP`, and responding writes one port. -/
theorem responseGoesToTheServedPort : Obligations.ResponseGoesToTheServedPort := by
  intro i s t h
  obtain ⟨f, r, rfl, hrc, huniform⟩ := exec_uniform_of_next h
  refine ⟨by simp, by simp, fun q hq => ?_, fun hp => ?_, fun old hold => ?_⟩
  · simp [List.getElem?_set_ne hq.symm]
  · exact ⟨{ r with status := (f.apply s).status, count := (f.apply s).count }, by simp [hp], rfl, rfl, hrc⟩
  · refine ⟨_, huniform _ (.of_resp s old), ?_⟩
    simp [Update.apply_of_resp, List.getElem?_set, hold]

/-! ## The step on each event (R61, R237, R251) -/

/-- A command announced on a port the block has is executed there (R61, R79). -/
theorem step_command {s : State} {p : Nat} {σ : Signals} {rest : List Event} {i : Instr}
    (hev : s.input = .command p σ :: rest) (hp : p < s.cfg.nLookupPorts) (hi : decode s.cfg σ = i) :
    step s = exec i { s with port := p, input := rest } := by
  simp [step, State.fetch, hev, hp, hi]

/-- A reset announced on a port the block has starts the block over (R251). -/
theorem step_rst {s : State} {p : Nat} {rest : List Event} (hi : s.input = .rst p :: rest)
    (hp : p < s.cfg.nLookupPorts) : step s = .next { State.initial s.cfg with input := rest } := by
  simp [step, State.fetch, hi, hp, State.resetNow]

theorem step_idle {s : State} (hi : s.input = []) : step s = .next s := by
  simp [step, State.fetch, hi]

/-! ## Unregistered entries are not observed (R37) -/

section Unregistered

variable {s t : State} (h : sameButUnregistered s t)
include h

theorem sameReads_of_sameButUnregistered : SameReads s t := by
  obtain ⟨hcfg, hcount, hstatus, -, -, -, hreg, -⟩ := h
  exact ⟨hcfg.symm, hcount.symm, hstatus.symm, hreg.symm⟩

theorem sameButUnregistered_respond (r : Resp) : sameButUnregistered (s.respond r) (t.respond r) := by
  obtain ⟨hcfg, hcount, hstatus, hresp, hport, hinput, hreg, hlen⟩ := h
  exact ⟨hcfg, hcount, hstatus, by simp [hresp, hport, hstatus, hcount], hport, hinput, hreg, hlen⟩

theorem sameButUnregistered_setStatus (b : BitVec 8) :
    sameButUnregistered { s with status := s.status ||| b } { t with status := t.status ||| b } := by
  obtain ⟨hcfg, hcount, hstatus, hresp, hport, hinput, hreg, hlen⟩ := h
  exact ⟨hcfg, hcount, by rw [hstatus], hresp, hport, hinput, hreg, hlen⟩

/-- The entry appended is the only one that becomes registered: what stood in its place is gone. -/
theorem sameButUnregistered_append (e : Entry) : sameButUnregistered (s.append e) (t.append e) := by
  obtain ⟨hcfg, hcount, hstatus, hresp, hport, hinput, hreg, hlen⟩ := h
  refine ⟨hcfg, by simp [hcount], hstatus, hresp, hport, hinput, ?_, by simp [hlen]⟩
  by_cases hroom : s.count < s.tbl.length
  · rw [registered_append s e hroom, registered_append t e (by omega), hreg]
  · have hs : s.registered = s.tbl := List.take_of_length_le (by omega)
    have ht : t.registered = t.tbl := List.take_of_length_le (by omega)
    have htbl : s.tbl = t.tbl := by rw [← hs, ← ht, hreg]
    simp only [State.registered, append_tbl, append_count, htbl, hcount]

theorem sameButUnregistered_retag (k tag : Nat) : sameButUnregistered (s.retag k tag) (t.retag k tag) := by
  obtain ⟨hcfg, hcount, hstatus, hresp, hport, hinput, hreg, hlen⟩ := h
  exact ⟨hcfg, hcount, hstatus, hresp, hport, hinput, by rw [registered_retag, registered_retag, hreg], by simp [hlen]⟩

theorem sameButUnregistered_apply (f : Update) : sameButUnregistered (f.apply s) (f.apply t) := by
  cases f with
  | keep => exact h
  | setSealed => exact sameButUnregistered_setStatus h _
  | setCfgFault => exact sameButUnregistered_setStatus h _
  | setSupersedeMiss => exact sameButUnregistered_setStatus h _
  | append e => exact sameButUnregistered_append h e
  | retag k tag => exact sameButUnregistered_retag h k tag

/-- A command answers in both states alike, and leaves them alike. -/
theorem exec_sameButUnregistered {i : Instr} {s' : State} (hexec : exec i s = .next s') :
    ∃ t', exec i t = .next t' ∧ sameButUnregistered s' t' := by
  obtain ⟨f, r, rfl, -, huniform⟩ := exec_uniform_of_next hexec
  exact ⟨_, huniform t (sameReads_of_sameButUnregistered h),
    sameButUnregistered_respond (sameButUnregistered_apply h f) r⟩

end Unregistered

/-- Settles O50, by the inversion of the step: both states take the same event off their list, and a command reads
nothing in which they differ. -/
theorem unregisteredEntriesAreUnobservable : Obligations.UnregisteredEntriesAreUnobservable := by
  intro s t s' h hstep
  have ⟨hcfg, hcount, hstatus, hresp, hport, hinput, hreg, hlen⟩ := h
  rcases step_cases hstep with ⟨hi, rfl⟩ | ⟨p, rest, hi, hp, rfl⟩ | ⟨p, σ, rest, hi, hp, hexec⟩
  · exact ⟨t, step_idle (hinput ▸ hi), h⟩
  · refine ⟨_, step_rst (hinput ▸ hi) (hcfg ▸ hp), ?_⟩
    rw [hcfg]
    exact ⟨rfl, rfl, rfl, rfl, rfl, rfl, rfl, rfl⟩
  · rw [step_command (hinput ▸ hi) (hcfg ▸ hp) (i := decode s.cfg σ) (by rw [hcfg])]
    have hserved : sameButUnregistered { s with port := p, input := rest } { t with port := p, input := rest } :=
      ⟨hcfg, hcount, hstatus, hresp, rfl, rfl, hreg, hlen⟩
    exact exec_sameButUnregistered hserved hexec

end Sys2Proof.Machine
end

section
/-! The window a lookup sees (R50 to R56): which bytes a symbol, an entry and a lookup read; that a lookup writes `RESP`
alone (R58); and that every command and every step on a port that exists completes (R220, R260). -/

namespace Sys2Proof.Machine

open Sys2Proof.Stated

/-! ## Bits of the window (R52, R53) -/

/-- The byte order within a word (R52): the upper eight symbols of word `m` read byte `2m + 1`. -/
theorem windowBit_of_lt_eight {w : Window} {m t : Nat} (ht : t < 8) :
    windowBit w (16 * m + t) = (windowByte w (2 * m + 1)).getLsbD (7 - t) := by
  have hdiv : (16 * m + t) / 8 = 2 * m := by omega
  have hmod : (16 * m + t) % 8 = t := by omega
  rw [windowBit, hdiv, hmod, Nat.xor_one_of_even (even_two_mul m)]

/-- The byte order within a word (R52): the lower eight symbols of word `m` read byte `2m`. -/
theorem windowBit_of_eight_le {w : Window} {m t : Nat} (ht : 8 ≤ t) (ht' : t < 16) :
    windowBit w (16 * m + t) = (windowByte w (2 * m)).getLsbD (15 - t) := by
  have hdiv : (16 * m + t) / 8 = 2 * m + 1 := by omega
  have hmod : 7 - (16 * m + t) % 8 = 15 - t := by omega
  rw [windowBit, hdiv, hmod, Nat.xor_one_of_odd (odd_two_mul_add_one m), Nat.add_sub_cancel]

/-- Bit `b` of the little-endian word of a low and a high byte is bit `b` of the low byte, or from 8 on bit `b - 8` of
the high byte. -/
theorem getLsbD_word (lo hi : Byte) {b : Nat} (hb : b < 16) :
    (lo.setWidth 16 ||| (hi.setWidth 16 <<< 8)).getLsbD b = if b < 8 then lo.getLsbD b else hi.getLsbD (b - 8) := by
  split
  · next hlow => simp [hb, hlow]
  · next hhigh =>
    have hlo : lo.getLsbD b = false := BitVec.getLsbD_of_ge lo b (by omega)
    simp [hb, hhigh, hlo]

/-- Settles O30, by the byte a symbol reads: the high byte of its word for `t < 8`, else the low byte. -/
theorem symbolsReadLittleEndianWords : Obligations.SymbolsReadLittleEndianWords := by
  intro w m t _ ht
  rw [getLsbD_word _ _ (by omega)]
  by_cases h8 : t < 8
  · rw [windowBit_of_lt_eight h8, if_neg (by omega), show 15 - t - 8 = 7 - t by omega]
  · rw [windowBit_of_eight_le (by omega) ht, if_pos (by omega)]

/-! ## The bytes a template reads (R56, R141) -/

/-- The symbols of the first `m` words read the first `2m` bytes alone (R53, R56). -/
theorem windowBit_congr {w w' : Window} {m i : Nat} (hw : ∀ j, j < 2 * m → windowByte w j = windowByte w' j)
    (hi : i < 16 * m) : windowBit w i = windowBit w' i := by
  obtain ⟨q, t, ht, rfl⟩ : ∃ q t, t < 16 ∧ i = 16 * q + t := ⟨i / 16, i % 16, by omega, by omega⟩
  by_cases h8 : t < 8
  · rw [windowBit_of_lt_eight h8, windowBit_of_lt_eight h8, hw _ (by omega)]
  · rw [windowBit_of_eight_le (by omega) ht, windowBit_of_eight_le (by omega) ht, hw _ (by omega)]

/-- The walk reads only the window bits at the indices it passes (R56). -/
theorem matchSyms_congr {w w' : Window} {i : Nat} {l : List Symbol} {a : Acc}
    (h : ∀ j, i ≤ j → j < i + l.length → windowBit w j = windowBit w' j) :
    matchSyms w i l a = matchSyms w' i l a := by
  ext b
  rw [matchSyms_eq_some, matchSyms_eq_some, litsAgree_congr h, pushAll_congr h]

/-- An entry with too few valid bytes misses (R134). -/
theorem matchEntry_of_lt {nSlots : Nat} {e : Entry} {w : Window} {n : Nat} (h : n < byteLen e.nsym) :
    matchEntry nSlots e w n = none :=
  if_pos h

/-- A template of a legal length that fits reads its own bytes alone, and not how many more are valid (R56, R141). -/
theorem matchEntry_congr_of_fits {nSlots : Nat} {e : Entry} {w w' : Window} {n n' : Nat} (hlen : e.nsym ∈ patLengths)
    (hsym : e.sym.length = e.nsym) (hn : byteLen e.nsym ≤ n) (hn' : byteLen e.nsym ≤ n')
    (hw : ∀ j, j < byteLen e.nsym → windowByte w j = windowByte w' j) :
    matchEntry nSlots e w n = matchEntry nSlots e w' n' := by
  obtain ⟨m, hm⟩ : ∃ m, e.nsym = 16 * m := by
    simp only [List.mem_cons, List.not_mem_nil, or_false] at hlen
    exact ⟨e.nsym / 16, by omega⟩
  have hbytes : byteLen e.nsym = 2 * m := by rw [byteLen]; omega
  rw [matchEntry_of_le hn, matchEntry_of_le hn']
  exact matchSyms_congr fun j _ hj => windowBit_congr (hbytes ▸ hw) (by omega)

/-- An attempt reads the valid bytes alone: a template that needs more misses (R51, R134). -/
theorem matchEntry_congr_of_valid {nSlots : Nat} {e : Entry} {w w' : Window} {n : Nat} (hlen : e.nsym ∈ patLengths)
    (hsym : e.sym.length = e.nsym) (hw : ∀ j, j < n → windowByte w j = windowByte w' j) :
    matchEntry nSlots e w n = matchEntry nSlots e w' n := by
  by_cases hn : n < byteLen e.nsym
  · rw [matchEntry_of_lt hn, matchEntry_of_lt hn]
  · have hfits : byteLen e.nsym ≤ n := by omega
    exact matchEntry_congr_of_fits hlen hsym hfits hfits fun j hj => hw j (by omega)

/-! ## The bytes a lookup reads (R51) -/

/-- A match attempt at an index goes through the entry registered there (R37). -/
theorem matchAt_congr {s : State} {w w' : Window} {n n' : Nat}
    (h : ∀ e ∈ s.registered, matchEntry s.cfg.nSlots e w n = matchEntry s.cfg.nSlots e w' n') (k : Nat) :
    s.matchAt w n k = s.matchAt w' n' k := by
  unfold State.matchAt
  cases he : s.entry? k with
  | none => rfl
  | some e => simp only [h e (entry?_mem s he)]

/-- RESOLVE depends on its operands through the match attempts on registered entries alone (R161, R163). -/
theorem exec_resolve_congr {s : State} {w w' : Window} {av av' : BitVec 3}
    (h : ∀ e ∈ s.registered,
      matchEntry s.cfg.nSlots e w (validBytes av) = matchEntry s.cfg.nSlots e w' (validBytes av')) :
    exec (.resolve w av) s = exec (.resolve w' av') s := by
  have hresolve : s.resolve? w (validBytes av) = s.resolve? w' (validBytes av') := by
    simp only [State.resolve?, matchAt_congr h]
  simp only [exec, execResolve, hresolve]

/-- MATCH depends on its window operands through the match attempt on the entry it names alone (R137). -/
theorem exec_matchTemplate_congr {s : State} {w w' : Window} {av av' : BitVec 3} (k : Nat)
    (h : ∀ e ∈ s.registered,
      matchEntry s.cfg.nSlots e w (validBytes av) = matchEntry s.cfg.nSlots e w' (validBytes av')) :
    exec (.matchTemplate k w av) s = exec (.matchTemplate k w' av') s := by
  cases he : s.entry? k with
  | none => simp only [exec, execMatchTemplate, he]
  | some e => simp only [exec, execMatchTemplate, he, h e (entry?_mem s he)]

/-- Every registered entry misses when fewer than 2 bytes are valid: no template is shorter (R51, R74). -/
theorem matchEntry_eq_none_of_lt_two {cfg : Config} {e : Entry} {w : Window} {n : Nat} (he : e.Wf cfg) (hn : n < 2) :
    matchEntry cfg.nSlots e w n = none := by
  obtain ⟨hlen, -⟩ := he
  have hbytes := byteLen_of_patLengths hlen
  simp only [List.mem_cons, List.not_mem_nil, or_false] at hbytes
  exact matchEntry_of_lt (by omega)

/-- The block has an entry at every index below `COUNT` (R22, R23). -/
theorem State.Wf.entry?_of_lt {s : State} {k : Nat} (h : s.Wf) (hk : k < s.count) : ∃ e, s.entry? k = some e := by
  obtain ⟨-, htbl, hcount, -⟩ := h
  have hlt : k < s.tbl.length := by omega
  exact ⟨s.tbl[k], (entry?_eq_some s).mpr ⟨hk, List.getElem?_eq_getElem hlt⟩⟩

section AllMiss

variable {s : State} {w : Window} {av : BitVec 3} (hready : s.Ready)
  (hmiss : ∀ e ∈ s.registered, matchEntry s.cfg.nSlots e w (validBytes av) = none)
include hready hmiss

/-- A RESOLVE that no registered entry matches answers `NO_MATCH` and skips 2 bytes (R163, R164). -/
theorem exec_resolve_of_all_miss :
    exec (.resolve w av) s = .next (answered s { codeOnly s .noMatch with consume := 2 }) := by
  obtain ⟨hsealed, hfault⟩ := hready
  have hresolve : s.resolve? w (validBytes av) = none := by
    refine List.findSome?_eq_none_iff.mpr fun k _ => Option.eq_none_iff_forall_ne_some.mpr fun x hx => ?_
    obtain ⟨e, a, he, ha, -⟩ := matchAt_eq_some.mp hx
    rw [hmiss e (entry?_mem s he)] at ha
    cases ha
  simp only [exec, execResolve, hsealed, hfault, hresolve]
  rfl

/-- A MATCH on a registered entry that does not match answers `NO_MATCH` (R137). -/
theorem exec_matchTemplate_of_all_miss {k : Nat} {e : Entry} (he : s.entry? k = some e) :
    exec (.matchTemplate k w av) s = .next (answered s (codeOnly s .noMatch)) := by
  obtain ⟨hsealed, hfault⟩ := hready
  simp only [exec, execMatchTemplate, hsealed, hfault, he, hmiss e (entry?_mem s he)]
  rfl

end AllMiss

/-- Settles O46: a lookup depends on its window through the attempts on registered entries, and each attempt reads the
valid bytes alone and needs at least 2. -/
theorem onlyValidWindowBytesMatter : Obligations.OnlyValidWindowBytesMatter := by
  refine ⟨fun s w w' av av' k hwf hav hw => ?_, fun s w k => ?_, fun s w av k hwf hready hav hk => ?_⟩
  · have hvalid : validBytes av = validBytes av' := hav
    obtain ⟨-, -, -, hentries, -⟩ := hwf
    have hmatch (e : Entry) (he : e ∈ s.registered) :
        matchEntry s.cfg.nSlots e w (validBytes av) = matchEntry s.cfg.nSlots e w' (validBytes av') := by
      obtain ⟨hlen, hsym, -⟩ := hentries e he
      exact hvalid ▸ matchEntry_congr_of_valid hlen hsym hw
    exact ⟨exec_resolve_congr hmatch, exec_matchTemplate_congr k hmatch⟩
  · exact ⟨exec_resolve_congr fun _ _ => rfl, exec_matchTemplate_congr k fun _ _ => rfl⟩
  · obtain ⟨e, he⟩ := hwf.entry?_of_lt hk
    obtain ⟨-, -, -, hentries, -⟩ := hwf
    have hmiss (e : Entry) (he : e ∈ s.registered) : matchEntry s.cfg.nSlots e w (validBytes av) = none :=
      matchEntry_eq_none_of_lt_two (hentries e he) (Nat.lt_of_le_of_lt (Nat.min_le_left ..) hav)
    exact ⟨exec_resolve_of_all_miss hready hmiss, exec_matchTemplate_of_all_miss hready hmiss he⟩

/-! ## A lookup writes its response alone (R58) -/

/-- All a lookup does is respond: no other case of a command is a lookup's. -/
theorem exec_lookup {i : Instr} {s t : State} (hi : isLookup i) (h : exec i s = .next t) : ∃ r, t = s.respond r := by
  obtain ⟨u, r, rfl, hcase⟩ := exec_cases h
  rcases hcase with ⟨rfl, -⟩ | ⟨rfl, -⟩ | ⟨mid, p, tag, rc, rfl, -⟩ | ⟨mid, tag, rfl, -⟩ |
    ⟨mid, p, tag, c, rfl, -⟩ | ⟨mid, tag, k, rfl, -⟩
  · exact ⟨r, rfl⟩
  all_goals exact hi.elim

/-- Settles O48, by the inversion of a lookup: responding writes `RESP` alone. -/
theorem lookupsWriteOnlyResp : Obligations.LookupsWriteOnlyResp := by
  intro i s t hi h
  obtain ⟨r, rfl⟩ := exec_lookup hi h
  rfl

/-! ## Commands and steps complete (R61, R220, R260) -/

/-- Settles O5, by the step on a command announced on a port the block has. -/
theorem stepExecutesTheDecodedCommand : Obligations.StepExecutesTheDecodedCommand :=
  fun _ _ _ _ _ hev hp hi => step_command hev hp hi

/-- Whatever a command updates, it then responds on the port served (R12, R31). -/
theorem exec_completes (i : Instr) {s : State} (hp : s.port < s.resp.length) : Completes i s := by
  obtain ⟨f, r, -, huniform⟩ := exec_uniform i s
  exact ⟨(f.apply s).respond r, { r with status := (f.apply s).status, count := (f.apply s).count },
    huniform s (.refl s), by simp, by simp [hp]⟩

/-- A step goes on whatever the event, when its port exists: it holds, starts over, or executes a command. -/
theorem step_next {s : State} (hports : s.PortsExist) : ∃ t, step s = .next t := by
  unfold State.PortsExist at hports
  cases hi : s.input with
  | nil => exact ⟨s, step_idle hi⟩
  | cons ev rest =>
    rw [hi] at hports
    cases ev with
    | rst p => exact ⟨_, step_rst hi hports⟩
    | command p σ =>
      rw [step_command hi hports rfl]
      exact exec_next _ _

/-- Settles O8: a command responds on the port served, and a step on a port that exists goes on. -/
theorem everyCommandCompletes : Obligations.EveryCommandCompletes :=
  ⟨fun i _ hp => exec_completes i hp, fun _ hports => step_next hports⟩

end Sys2Proof.Machine
end

section
/-! From the signals of a port to a command and back (R79 to R81, R89); the values the block never produces (R28, R85);
and how a pattern string is compiled (R70 to R75, R103). -/

namespace Sys2Proof.Machine

open Sys2Proof.Laws

/-! ## Operands on their signals (R79, R81) -/

/-- The signals of a command that fits the port fit their wires, whichever the command. -/
theorem encode_fits (i : Instr) : EncodeFits.Statement i := by
  cases i with
  | nop => exact EncodeFits.nop
  | register mid pat tag => exact EncodeFits.register mid pat tag
  | supersede mid tag => exact EncodeFits.supersede mid tag
  | sealTable => exact EncodeFits.sealTable
  | matchTemplate tidx w avail => exact EncodeFits.matchTemplate tidx w avail
  | resolve w avail => exact EncodeFits.resolve w avail
  | reserved110 => exact EncodeFits.reserved110
  | reserved111 => exact EncodeFits.reserved111

section RoundTrip

variable {cfg : Config} {i : Instr} (h : i.wellFormed cfg = true)
include h

theorem decodeMid_encode : decodeMid cfg (encode i) = (encode i).argMid := by
  obtain ⟨-, hmid, -⟩ := encode_fits i cfg h
  exact Nat.mod_eq_of_lt hmid

theorem decodeTag_encode : decodeTag cfg (encode i) = (encode i).argTag := by
  obtain ⟨-, -, htag, -⟩ := encode_fits i cfg h
  exact Nat.mod_eq_of_lt htag

theorem decodeTidx_encode : decodeTidx cfg (encode i) = (encode i).argTidx := by
  obtain ⟨-, -, -, -, -, htidx⟩ := encode_fits i cfg h
  exact Nat.mod_eq_of_lt htidx

end RoundTrip

/-- Reading as many lanes as a list has reads the list. -/
theorem map_getD_range_length (l : List Byte) : (List.range l.length).map (fun j => l.getD j 0) = l := by
  refine List.ext_getElem (by simp) fun j _ hj => ?_
  simp [hj]

/-- A pattern the port can carry comes back from its signals (R79). -/
theorem decodePat_encode_register {cfg : Config} {mid tag : Nat} {p : PatStr} (h : patFits cfg p = true) :
    decodePat cfg (encode (.register mid p tag)) = p := by
  simp only [patFits, Bool.and_eq_true, decide_eq_true_eq, beq_iff_eq] at h
  obtain ⟨hlen, hchars⟩ := h
  simp only [decodePat, encode, Nat.mod_eq_of_lt hlen, ← hchars, map_getD_range_length]

/-- Settles O1, command by command: each operand comes back from its signal. -/
theorem decodeOfEncodeIsTheCommand : Obligations.DecodeOfEncodeIsTheCommand := by
  intro cfg i h
  cases i with
  | nop => rfl
  | register mid pat tag =>
    have hpat : patFits cfg pat = true := by
      simp only [Instr.wellFormed, Bool.and_eq_true] at h
      obtain ⟨⟨-, hpat⟩, -⟩ := h
      exact hpat
    calc decode cfg (encode (.register mid pat tag))
        = .register (decodeMid cfg (encode (.register mid pat tag))) (decodePat cfg (encode (.register mid pat tag)))
            (decodeTag cfg (encode (.register mid pat tag))) := rfl
      _ = .register mid pat tag := by
        rw [decodeMid_encode h, decodePat_encode_register hpat, decodeTag_encode h]; rfl
  | supersede mid tag => exact congrArg₂ Instr.supersede (decodeMid_encode h) (decodeTag_encode h)
  | sealTable => rfl
  | matchTemplate tidx w avail => exact congrArg (Instr.matchTemplate · w avail) (decodeTidx_encode h)
  | resolve w avail => rfl
  | reserved110 => rfl
  | reserved111 => rfl

/-- Settles O4: the signals of each row are those of a command that fits the port. -/
theorem commandCodesDecodeByTable : Obligations.CommandCodesDecodeByTable :=
  have row (i : Instr) (h : i.wellFormed Config.vectors = true) : decode Config.vectors (encode i) = i :=
    decodeOfEncodeIsTheCommand _ i h
  ⟨row .nop rfl, row (.register 3 ⟨2, [0x30#8, 0x72#8]⟩ 5) (by decide), row (.supersede 3 0x83) (by decide),
    row .sealTable rfl, row (.matchTemplate 2 ⟨0x5F, 0x1F, 0, 0, 0, 0⟩ 2) (by decide),
    row (.resolve ⟨0x0C, 0x94, 0x34, 0x12, 0, 0⟩ 4) rfl, row .reserved110 rfl, row .reserved111 rfl⟩

/-- Of the pattern signals only `arg_pat[0 .. arg_pat_len-1]`, as far as the port has lanes, is read (R79). -/
theorem decodePat_congr {cfg : Config} {σ τ : Signals} (hlen : σ.argPatLen = τ.argPatLen)
    (hpat : ∀ j, j < σ.argPatLen → j < cfg.patMaxChars → σ.argPat[j]? = τ.argPat[j]?) :
    decodePat cfg σ = decodePat cfg τ := by
  simp only [decodePat, ← hlen, PatStr.mk.injEq, true_and]
  refine List.map_congr_left fun j hj => ?_
  have hj' : j < min (σ.argPatLen % 2 ^ cfg.patLenW) cfg.patMaxChars := List.mem_range.mp hj
  have hmod : σ.argPatLen % 2 ^ cfg.patLenW ≤ σ.argPatLen := Nat.mod_le _ _
  rw [List.getD_eq_getElem?_getD, List.getD_eq_getElem?_getD, hpat j (by omega) (by omega)]

/-- Settles O3, code by code: the decoder reads the signals R81 gives that code and no other. -/
theorem unusedSignalsAreIgnored : Obligations.UnusedSignalsAreIgnored := by
  intro cfg σ τ hcmd hconf hpat htidx hlookup
  have hmidTag (hc : σ.cmd = 0b001#3 ∨ σ.cmd = 0b010#3) :
      decodeMid cfg σ = decodeMid cfg τ ∧ decodeTag cfg σ = decodeTag cfg τ := by
    obtain ⟨hmid, htag⟩ := hconf hc
    exact ⟨congrArg (· % _) hmid, congrArg (· % _) htag⟩
  unfold decode
  rw [← hcmd]
  split
  case h_2 hc =>
    obtain ⟨hmid, htag⟩ := hmidTag (.inl hc)
    obtain ⟨hlen, hchars⟩ := hpat hc
    rw [hmid, decodePat_congr hlen hchars, htag]
  case h_3 hc =>
    obtain ⟨hmid, htag⟩ := hmidTag (.inr hc)
    rw [hmid, htag]
  case h_5 hc =>
    obtain ⟨hw, hav⟩ := hlookup (.inl hc)
    rw [decodeTidx, decodeTidx, htidx hc, hw, hav]
  case h_6 hc =>
    obtain ⟨hw, hav⟩ := hlookup (.inr hc)
    rw [hw, hav]
  all_goals rfl

/-! ## Reserved values (R28, R78, R85) -/

theorem respCode_code_le (rc : RespCode) : rc.code.toNat ≤ 9 := by
  cases rc <;> decide

/-- Bits 7:6 of a stored symbol are its kind, whatever its slot (R78). -/
theorem symBits_kind_ne (x : Symbol) : (symBits x).extractLsb' 6 2 ≠ 0b11#2 := by
  cases x with
  | l0 => decide
  | l1 => decide
  | field c =>
    have hkind : (symBits (.field c)).extractLsb' 6 2 = 0b10#2 := BitVec.extractLsb'_append_eq_left
    rw [hkind]
    decide

/-- A command sets none of the reserved bits of `STATUS` (R28). -/
theorem exec_status_reserved {i : Instr} {s t : State} (h : exec i s = .next t) :
    t.status.extractLsb' 3 5 = s.status.extractLsb' 3 5 := by
  have hor (b : BitVec 8) (hb : b.extractLsb' 3 5 = 0#5) :
      (s.status ||| b).extractLsb' 3 5 = s.status.extractLsb' 3 5 := by
    rw [BitVec.extractLsb'_or, hb, BitVec.or_zero]
  obtain ⟨u, r, rfl, hcase⟩ := exec_cases h
  rcases hcase with ⟨rfl, -⟩ | ⟨-, -, rfl, -⟩ | ⟨mid, p, tag, rc, -, rfl, -⟩ | ⟨mid, tag, -, -, rfl, -⟩ |
    ⟨mid, p, tag, c, -, -, -, -, -, -, rfl⟩ | ⟨mid, tag, k, -, -, -, rfl⟩
  · rfl
  · exact hor 0x01#8 (by decide)
  · exact hor 0x02#8 (by decide)
  · exact hor 0x04#8 (by decide)
  · rfl
  · rfl

/-- The reserved bits of `STATUS` stay 0 over every step, a reset included (R28). -/
theorem step_status_reserved {s t : State} (hs : s.status.extractLsb' 3 5 = 0#5) (h : step s = .next t) :
    t.status.extractLsb' 3 5 = 0#5 := by
  rcases step_cases h with ⟨-, rfl⟩ | ⟨p, rest, -, -, rfl⟩ | ⟨p, σ, rest, -, -, hexec⟩
  · exact hs
  · show (0x00#8).extractLsb' 3 5 = 0#5
    decide
  · exact (exec_status_reserved hexec).trans hs

/-- Settles O12: the codes and the symbol kinds by their tables, the status bits by the inversion of the step. -/
theorem reservedValuesNeverAppear : Obligations.ReservedValuesNeverAppear :=
  ⟨respCode_code_le, symBits_kind_ne, rfl, fun _ _ => step_status_reserved⟩

/-! ## Compiling a pattern (R70 to R75, R103) -/

/-- The stored form of a character, by the character (R103). -/
theorem symbolOf_eq_some {cfg : Config} {ch : Byte} {x : Symbol} : symbolOf cfg ch = some x ↔
    (ch = 0x30#8 ∧ x = .l0) ∨ (ch = 0x31#8 ∧ x = .l1) ∨
    (ch ≠ 0x30#8 ∧ ch ≠ 0x31#8 ∧ ∃ k, cfg.slotOf ch = some k ∧ x = .field k) := by
  unfold symbolOf
  split
  · next h0 => simp [h0, eq_comm]
  · next h0 =>
    split
    · next h1 => simp [h1, eq_comm]
    · next h1 => simp [h0, h1, eq_comm]

/-- A character gives a literal exactly when it is `0` or `1` (R75). -/
theorem isLiteral_of_symbolOf {cfg : Config} {ch : Byte} {x : Symbol} (h : symbolOf cfg ch = some x) :
    isLiteral x = decide (ch = 0x30#8 ∨ ch = 0x31#8) := by
  rcases symbolOf_eq_some.mp h with ⟨rfl, rfl⟩ | ⟨rfl, rfl⟩ | ⟨h0, h1, k, -, rfl⟩
  · rfl
  · rfl
  · simp [isLiteral, h0, h1]

/-- The specificity of symbols read from characters is the number of characters `0` and `1` (R75). -/
theorem specificity_of_symbolOf {cfg : Config} {chars : List Byte} {xs : List Symbol}
    (h : List.Forall₂ (fun ch x => symbolOf cfg ch = some x) chars xs) :
    specificity xs = chars.countP (fun ch => ch = 0x30#8 ∨ ch = 0x31#8) := by
  induction h with
  | nil => rfl
  | cons hx _ ih => rw [specificity, List.countP_cons, List.countP_cons, isLiteral_of_symbolOf hx, ← ih, specificity]

/-- Skipping spaces loses no character `0` or `1` (R71). -/
theorem countP_literals_filter (chars : List Byte) :
    (chars.filter (fun ch => ch ≠ 0x20#8)).countP (fun ch => ch = 0x30#8 ∨ ch = 0x31#8) =
      chars.countP (fun ch => ch = 0x30#8 ∨ ch = 0x31#8) := by
  rw [List.countP_filter]
  refine List.countP_congr fun ch _ => ?_
  have hspace : ch = 0x30#8 ∨ ch = 0x31#8 → ch ≠ 0x20#8 := by rintro (rfl | rfl) <;> decide
  simpa using hspace

/-- A string that has symbols has one for each non-space character (R71). -/
theorem symbolsOf_length {cfg : Config} {l : List Byte} {xs : List Symbol} (h : symbolsOf cfg l = some xs) :
    xs.length = (l.filter (fun ch => ch ≠ 0x20#8)).length :=
  (symbolsOf_some h).length_eq.symm

/-- Settles O27, from the symbols of the string character by character. -/
theorem compiledTemplateSpellsThePattern : Obligations.CompiledTemplateSpellsThePattern := by
  intro cfg p c h
  obtain ⟨-, hsym, hnsym, hspec, -⟩ := compile_some h
  have hchars := symbolsOf_some hsym
  refine ⟨hnsym.trans (symbolsOf_length hsym), ?_, hchars.imp fun ch x hx => ?_⟩
  · rw [hspec, specificity_of_symbolOf hchars, countP_literals_filter]
  · rcases symbolOf_eq_some.mp hx with ⟨rfl, rfl⟩ | ⟨rfl, rfl⟩ | ⟨h0, h1, hk⟩
    · simp
    · simp
    · exact ⟨(absurd · h0), (absurd · h1), fun _ _ => hk⟩

/-- A string the port can hold is compiled from its symbols alone (R103). -/
theorem compile_congr {cfg : Config} {p q : PatStr} (hp : p.len ≤ cfg.patMaxChars) (hq : q.len ≤ cfg.patMaxChars)
    (h : symbolsOf cfg p.chars = symbolsOf cfg q.chars) : compile cfg p = compile cfg q := by
  rw [compile, compile, if_neg (by omega), if_neg (by omega), h]

/-- Settles O28: spaces are skipped, so the two strings have the same symbols. -/
theorem spacesCarryNoMeaning : Obligations.SpacesCarryNoMeaning := by
  intro cfg p q hp hq h
  refine compile_congr hp hq ?_
  rw [symbolsOf_filter, h, ← symbolsOf_filter]

/-- When a string the port can hold is malformed, by what its symbols are (R103). -/
theorem compile_eq_none {cfg : Config} {p : PatStr} : compile cfg p = none ↔
    cfg.patMaxChars < p.len ∨ ∀ xs, symbolsOf cfg p.chars = some xs → xs.length ∉ patLengths := by
  unfold compile
  split
  · next hlen => simp [hlen]
  · next hlen =>
    split
    · next hs => simp [hs]
    · next xs hs => simp [hs, hlen]

/-- A string has no symbols exactly when it holds a character outside the grammar (R72 case 1). -/
theorem symbolsOf_eq_none_iff_exists_invalid {cfg : Config} {l : List Byte} : symbolsOf cfg l = none ↔
    ∃ ch ∈ l, ch ≠ 0x20#8 ∧ ch ≠ 0x30#8 ∧ ch ≠ 0x31#8 ∧ ch ∉ cfg.fieldAlphabet := by
  simp only [symbolsOf_eq_none, symbolOf_eq_none]

/-- R72: the three cases of a malformed pattern. -/
theorem compile_eq_none_iff_malformed {cfg : Config} {p : PatStr} : compile cfg p = none ↔
    (∃ ch ∈ p.chars, ch ≠ 0x20#8 ∧ ch ≠ 0x30#8 ∧ ch ≠ 0x31#8 ∧ ch ∉ cfg.fieldAlphabet) ∨
    (p.chars.filter (fun ch => ch ≠ 0x20#8)).length ∉ patLengths ∨ cfg.patMaxChars < p.len := by
  rw [compile_eq_none, ← symbolsOf_eq_none_iff_exists_invalid]
  cases hs : symbolsOf cfg p.chars with
  | none => simp
  | some xs => simp only [← symbolsOf_length hs, Option.some.injEq, forall_eq', reduceCtorEq, false_or, or_comm]

/-- REGISTER rejects a malformed pattern before SEAL (R102). -/
theorem exec_register_malformed {s : State} {p : PatStr} (mid tag : Nat) (hs : s.sealed = false)
    (hp : compile s.cfg p = none) : exec (.register mid p tag) s = .next (s.reject .malformedTemplate) := by
  simp [exec, execRegister, hs, hp]

/-- Settles O26: the three cases of `Compile`, and the rejection that follows from any of them. -/
theorem malformedPatternsAreExactlyR72 : Obligations.MalformedPatternsAreExactlyR72 :=
  ⟨fun _ _ => compile_eq_none_iff_malformed, fun _ mid tag _ hs hp => ⟨_, rfl, exec_register_malformed mid tag hs hp⟩⟩

/-! ## Slots of the field letters (R73) -/

/-- In a list in ascending code order, as many characters precede a character as have a smaller code. -/
theorem countP_lt_of_pairwise_lt {l : List Byte} (hl : l.Pairwise (fun a b => a.toNat < b.toNat)) {k : Nat} {ch : Byte}
    (hk : l[k]? = some ch) : l.countP (fun d => d.toNat < ch.toNat) = k := by
  induction l generalizing k with
  | nil => simp at hk
  | cons d l ih =>
    obtain ⟨hd, hl⟩ := List.pairwise_cons.mp hl
    cases k with
    | zero =>
      obtain rfl : d = ch := by simpa using hk
      have hnone : l.countP (fun x => x.toNat < d.toNat) = 0 :=
        List.countP_eq_zero.mpr fun x hx => by simpa using (hd x hx).le
      simp [hnone]
    | succ k =>
      rw [List.getElem?_cons_succ] at hk
      have hlt : d.toNat < ch.toNat := hd ch (List.mem_of_getElem? hk)
      simp [ih hl hk, hlt]

theorem asciiLetters_pairwise_lt : asciiLetters.Pairwise (fun a b => a.toNat < b.toNat) := by decide

/-- A slot is a position in the alphabet, where the alphabet is a set of letters in code order (R73, log 8). -/
theorem slotOf_eq_some_iff {cfg : Config} {ch : Byte} {k : Nat} (h : cfg.fieldAlphabet.Sublist asciiLetters) :
    cfg.slotOf ch = some k ↔ cfg.fieldAlphabet[k]? = some ch := by
  have hslot {j : Nat} (hj : cfg.fieldAlphabet[j]? = some ch) : cfg.slotOf ch = some j := by
    rw [Config.slotOf, if_pos (List.mem_of_getElem? hj),
      countP_lt_of_pairwise_lt (asciiLetters_pairwise_lt.sublist h) hj]
  refine ⟨fun hk => ?_, hslot⟩
  have hmem : ch ∈ cfg.fieldAlphabet := by
    by_contra hn
    simp [Config.slotOf, hn] at hk
  obtain ⟨j, hj⟩ := List.mem_iff_getElem?.mp hmem
  obtain rfl : j = k := Option.some.inj ((hslot hj).symm.trans hk)
  exact hj

/-- The upper-case letters are the first 26 (R13). -/
theorem asciiLetters_upper {j : Nat} (hj : j < 26) : asciiLetters[j]? = some (BitVec.ofNat 8 (0x41 + j)) := by
  simp [asciiLetters, List.getElem?_append, hj]

/-- The lower-case letters follow (R13). -/
theorem asciiLetters_lower {j : Nat} (hj : j < 26) : asciiLetters[26 + j]? = some (BitVec.ofNat 8 (0x61 + j)) := by
  simp [asciiLetters, List.getElem?_append, hj]

/-- Settles O29: a slot is a position, and the positions of the default alphabet are known. -/
theorem slotIsThePositionInTheAlphabet : Obligations.SlotIsThePositionInTheAlphabet := by
  refine ⟨fun cfg ch k hwf => ?_, fun cfg j halpha hj => ?_⟩
  · obtain ⟨-, -, -, -, -, hsub⟩ := hwf
    exact slotOf_eq_some_iff hsub
  · have hsub : cfg.fieldAlphabet.Sublist asciiLetters := by rw [halpha]
    exact ⟨(slotOf_eq_some_iff hsub).mpr (halpha ▸ asciiLetters_upper hj),
      (slotOf_eq_some_iff hsub).mpr (halpha ▸ asciiLetters_lower hj)⟩

end Sys2Proof.Machine
end

section
/-! The configuration commands (R101 to R109): each outcome of each command as one equation, then what they leave of the
table: distinct identifiers (R104), the patterns and `ORDER` after SEAL (R106), and, after SUPERSEDE, the same matches
with the new tag (R107). -/

namespace Sys2Proof.Machine

open Sys2Proof.Stated

/-! ## The outcomes of each command (R101, R102, R107 to R109) -/

section Outcomes

variable {s : State} {mid : Nat} (tag : Nat)

theorem exec_nop (s : State) : exec .nop s = .next (s.respond (s.blank .ok)) := rfl

theorem exec_reserved110 (s : State) : exec .reserved110 s = .next (s.respond (s.blank .illegalCommand)) := rfl

theorem exec_reserved111 (s : State) : exec .reserved111 s = .next (s.respond (s.blank .illegalCommand)) := rfl

theorem exec_sealTable_of_build (hs : s.sealed = false) :
    exec .sealTable s = .next (s.setSealed.respond (s.blank .ok)) := by
  simp [exec, execSealTable, hs]

theorem exec_sealTable_of_sealed (hs : s.sealed = true) :
    exec .sealTable s = .next (s.respond (s.blank .wrongPhase)) := by
  simp [exec, execSealTable, hs]

theorem exec_supersede_found {k : Nat} (hk : s.findMid mid = some k) :
    exec (.supersede mid tag) s = .next ((s.retag k tag).respond { s.blank .ok with tidx := k }) := by
  simp [exec, execSupersede, hk]

theorem exec_supersede_missing (hm : fresh s mid) :
    exec (.supersede mid tag) s = .next (s.setSupersedeMiss.respond (s.blank .supersedeTargetMissing)) := by
  simp [exec, execSupersede, (findMid_eq_none s).mpr hm]

theorem exec_register_sealed (mid : Nat) (p : PatStr) (hs : s.sealed = true) :
    exec (.register mid p tag) s = .next (s.reject .wrongPhase) := by
  simp [exec, execRegister, hs]

variable {p : PatStr}

theorem exec_register_duplicate (hs : s.sealed = false) (hp : (compile s.cfg p).isSome) (hm : ¬ fresh s mid) :
    exec (.register mid p tag) s = .next (s.reject .duplicateMnemonic) := by
  obtain ⟨c, hc⟩ := Option.isSome_iff_exists.mp hp
  have hfound : (s.findMid mid).isSome := Option.isSome_iff_ne_none.mpr (mt (findMid_eq_none s).mp hm)
  simp [exec, execRegister, hs, hc, hfound]

theorem exec_register_full (hs : s.sealed = false) (hp : (compile s.cfg p).isSome) (hm : fresh s mid)
    (hn : s.count = s.cfg.nTemplates) : exec (.register mid p tag) s = .next (s.reject .tableFull) := by
  obtain ⟨c, hc⟩ := Option.isSome_iff_exists.mp hp
  simp [exec, execRegister, hs, hc, (findMid_eq_none s).mpr hm, hn]

theorem exec_register_ok {c : Compiled} (hs : s.sealed = false) (hc : compile s.cfg p = some c) (hm : fresh s mid)
    (hn : s.count < s.cfg.nTemplates) : exec (.register mid p tag) s =
      .next ((s.append { mid := mid, tag := tag, nsym := c.nsym, spec := c.spec, sym := c.sym }).respond
        { s.blank .ok with tidx := s.count }) := by
  simp [exec, execRegister, hs, hc, (findMid_eq_none s).mpr hm, hn.ne]

end Outcomes

/-- Settles O16: the code decodes by the table of R80, and NOP only responds. -/
theorem nopRespondsOk : Obligations.NopRespondsOk :=
  ⟨fun _ _ hcmd => by simp [decode, hcmd], exec_nop⟩

/-- Settles O17: the codes decode by the table of R80, and both reserved commands only respond. -/
theorem reservedCodesRespondIllegalCommand : Obligations.ReservedCodesRespondIllegalCommand :=
  ⟨fun _ _ => ⟨fun hcmd => by simp [decode, hcmd], fun hcmd => by simp [decode, hcmd]⟩,
    fun s => ⟨exec_reserved110 s, exec_reserved111 s⟩⟩

/-- Settles O18, by REGISTER's five outcomes in the order of its checks. -/
theorem registerInsertsOrRejects : Obligations.RegisterInsertsOrRejects := by
  refine ⟨fun cfg σ hcmd => by simp [decode, hcmd], fun s mid tag p => ⟨?_, s.setCfgFault, rfl, ?_⟩⟩
  · intro c hs hc hm hn
    exact ⟨_, rfl, exec_register_ok tag hs hc hm hn⟩
  · exact ⟨exec_register_sealed tag mid p, exec_register_malformed mid tag, exec_register_duplicate tag,
      exec_register_full tag⟩

/-- Settles O21, by the two outcomes of SEAL. -/
theorem sealEndsTheBuildPhase : Obligations.SealEndsTheBuildPhase := by
  refine ⟨fun cfg σ hcmd => by simp [decode, hcmd], fun s => ⟨fun hs => ?_, exec_sealTable_of_sealed⟩⟩
  exact ⟨s.setSealed, rfl, sealed_setSealed s, exec_sealTable_of_build hs⟩

/-- Replacing the tag of the entry at `k` is writing that entry with the new tag (R107). -/
theorem retag_eq_set {s : State} {k : Nat} {e : Entry} (he : s.tbl[k]? = some e) (tag : Nat) :
    s.retag k tag = { s with tbl := s.tbl.set k { e with tag := tag } } := by
  rw [State.retag, List.modify_eq_set_getElem?, he]
  rfl

/-- Settles O19: under distinct identifiers SUPERSEDE finds the one entry with that identifier, or none. -/
theorem supersedeRetagsOrReportsMiss : Obligations.SupersedeRetagsOrReportsMiss := by
  refine ⟨fun cfg σ hcmd => by simp [decode, hcmd], fun s mid tag hn => ⟨fun k e hk he hmid => ?_, fun hm => ?_⟩⟩
  · have hfind : s.findMid mid = some k := findMid_of_nodup s hn ((entry?_eq_some s).mpr ⟨hk, he⟩) hmid
    refine ⟨_, rfl, ?_⟩
    rw [exec_supersede_found tag hfind, retag_eq_set he]
    rfl
  · exact ⟨s.setSupersedeMiss, rfl, exec_supersede_missing tag hm⟩

/-! ## Identifiers stay distinct (R104) -/

/-- Appending beyond the table's length registers nothing new. -/
theorem registered_append_of_full (s : State) (e : Entry) (h : s.tbl.length ≤ s.count) :
    (s.append e).registered = s.registered := by
  simp only [State.registered, append_tbl, append_count, List.set_eq_of_length_le h]
  rw [List.take_of_length_le h, List.take_of_length_le (Nat.le_succ_of_le h)]

theorem mids_append_nodup {s : State} {e : Entry} (hn : (s.registered.map Entry.mid).Nodup)
    (hnew : s.findMid e.mid = none) : ((s.append e).registered.map Entry.mid).Nodup := by
  by_cases hroom : s.count < s.tbl.length
  · rw [registered_append s e hroom, List.map_append]
    refine List.Nodup.append hn (List.nodup_singleton _) ?_
    simpa using (findMid_eq_none s).mp hnew
  · rwa [registered_append_of_full s e (Nat.le_of_not_lt hroom)]

/-- A command keeps the identifiers distinct: REGISTER appends a new one, SUPERSEDE keeps them, the others do not touch
the table. -/
theorem exec_mids_nodup {i : Instr} {s t : State} (hn : (s.registered.map Entry.mid).Nodup)
    (h : exec i s = .next t) : (t.registered.map Entry.mid).Nodup := by
  obtain ⟨u, r, rfl, hcase⟩ := exec_cases h
  change (u.registered.map Entry.mid).Nodup
  rcases hcase with ⟨rfl, -⟩ | ⟨-, -, rfl, -⟩ | ⟨mid, p, tag, rc, -, rfl, -⟩ | ⟨mid, tag, -, -, rfl, -⟩ |
    ⟨mid, p, tag, c, -, -, -, hnew, -, -, rfl⟩ | ⟨mid, tag, k, -, -, -, rfl⟩
  · exact hn
  · exact hn
  · exact hn
  · exact hn
  · exact mids_append_nodup hn hnew
  · rwa [mids_retag]

theorem initial_mids_nodup (cfg : Config) : ((State.initial cfg).registered.map Entry.mid).Nodup := by
  simp [State.registered]

/-- Settles O15, by the inversion of a step: a reset registers nothing, and a command keeps the identifiers distinct. -/
theorem identifiersStayDistinct : Obligations.IdentifiersStayDistinct := by
  refine ⟨initial_mids_nodup, fun s t hn h => ?_⟩
  rcases step_cases h with ⟨-, rfl⟩ | ⟨p, rest, -, -, rfl⟩ | ⟨p, σ, rest, -, -, hexec⟩
  · exact hn
  · exact initial_mids_nodup s.cfg
  · exact exec_mids_nodup (s := { s with port := p, input := rest }) hn hexec

/-! ## What does not depend on the tags (R22, R30, R38) -/

/-- Everything of an entry but its tag: what is fixed after SEAL (R38, R106). -/
def Entry.pattern (e : Entry) : Nat × Nat × Nat × List Symbol := (e.mid, e.nsym, e.spec, e.sym)

@[simp] theorem pattern_with_tag (e : Entry) (tag : Nat) : ({ e with tag := tag } : Entry).pattern = e.pattern := rfl

/-- Retagging keeps every pattern. -/
theorem patterns_retag (s : State) (k tag : Nat) :
    (s.retag k tag).tbl.map Entry.pattern = s.tbl.map Entry.pattern := by
  apply List.ext_getElem?
  intro j
  simp only [retag_tbl, List.getElem?_map, List.getElem?_modify]
  split <;> simp [Function.comp_def]

theorem specAt_eq_of_patterns (s : State) (k : Nat) :
    s.specAt k = ((s.tbl.map Entry.pattern)[k]?.map (fun x => x.2.2.1)).getD 0 := by
  rw [State.specAt, List.getElem?_map]
  cases s.tbl[k]? <;> rfl

/-- `ORDER` is fixed by `COUNT` and the patterns (R30). -/
theorem order_eq_of_patterns {s t : State} (hcount : t.count = s.count)
    (hpat : t.tbl.map Entry.pattern = s.tbl.map Entry.pattern) : t.order = s.order := by
  have hspec : t.specAt = s.specAt := funext fun k => by rw [specAt_eq_of_patterns, specAt_eq_of_patterns, hpat]
  rw [State.order, State.order, hcount, hspec]

/-! ## The table after SEAL (R106) -/

/-- In phase SEALED a command leaves `COUNT` and every pattern: REGISTER appends only before SEAL. -/
theorem exec_sealed_patterns {i : Instr} {s t : State} (hs : s.sealed = true) (h : exec i s = .next t) :
    t.count = s.count ∧ t.tbl.map Entry.pattern = s.tbl.map Entry.pattern := by
  obtain ⟨u, r, rfl, hcase⟩ := exec_cases h
  rcases hcase with ⟨rfl, -⟩ | ⟨-, -, rfl, -⟩ | ⟨mid, p, tag, rc, -, rfl, -⟩ | ⟨mid, tag, -, -, rfl, -⟩ |
    ⟨mid, p, tag, c, -, hbuild, -⟩ | ⟨mid, tag, k, -, -, -, rfl⟩
  · exact ⟨rfl, rfl⟩
  · exact ⟨rfl, rfl⟩
  · exact ⟨rfl, rfl⟩
  · exact ⟨rfl, rfl⟩
  · simp [hs] at hbuild
  · exact ⟨rfl, patterns_retag s k tag⟩

theorem step_sealed_patterns {s t : State} (hs : s.sealed = true) (hr : noReset s) (h : step s = .next t) :
    t.count = s.count ∧ t.tbl.map Entry.pattern = s.tbl.map Entry.pattern := by
  rcases step_cases h with ⟨-, rfl⟩ | ⟨p, rest, hrst, -, -⟩ | ⟨p, σ, rest, -, -, hexec⟩
  · exact ⟨rfl, rfl⟩
  · exact absurd hrst (hr p rest)
  · exact exec_sealed_patterns (s := { s with port := p, input := rest }) hs hexec

/-- Settles O25: `SEALED` is sticky, `COUNT` and the patterns stay, and `ORDER` is fixed by them. -/
theorem sealedTableIsFixed : Obligations.SealedTableIsFixed := by
  refine ⟨fun s t hs hr h => ?_, fun s mid tag p hs => ⟨s.setCfgFault, rfl, exec_register_sealed tag mid p hs⟩⟩
  obtain ⟨hsealed, -, -⟩ := onlyResetClearsStatusBits s t h hr
  obtain ⟨hcount, hpat⟩ := step_sealed_patterns hs hr h
  exact ⟨hsealed hs, hcount, order_eq_of_patterns hcount hpat, hpat⟩

/-! ## Lookups after SUPERSEDE (R107, R258) -/

/-- What a lookup finds, with the tag replaced where it finds entry `k`. -/
def retagFound (k tag : Nat) (x : Nat × Entry × Acc) : Nat × Entry × Acc :=
  (x.1, if x.1 = k then { x.2.1 with tag := tag } else x.2.1, x.2.2)

theorem SameReads.of_respond (s : State) (r : Resp) : SameReads s (s.respond r) := ⟨rfl, rfl, rfl, rfl⟩

theorem entry?_retag (s : State) (k tag j : Nat) : (s.retag k tag).entry? j =
    (s.entry? j).map (fun e => if j = k then { e with tag := tag } else e) := by
  rw [entry?_eq_registered, entry?_eq_registered, registered_retag]
  simp only [List.getElem?_modify, Option.map_eq_map, eq_comm]

/-- The matcher does not read the tag (R130). -/
theorem matchEntry_retag (nSlots : Nat) (e : Entry) (tag : Nat) (w : Window) (n : Nat) :
    matchEntry nSlots { e with tag := tag } w n = matchEntry nSlots e w n := rfl

theorem matchAt_retag (s : State) (k tag : Nat) (w : Window) (n j : Nat) :
    (s.retag k tag).matchAt w n j = (s.matchAt w n j).map (retagFound k tag) := by
  rw [State.matchAt, entry?_retag, State.matchAt]
  cases s.entry? j with
  | none => rfl
  | some e =>
    by_cases hj : j = k
    · simp [hj, matchEntry_retag, retagFound, Function.comp_def]
    · simp [hj, retagFound, Function.comp_def]

theorem order_retag (s : State) (k tag : Nat) : (s.retag k tag).order = s.order :=
  order_eq_of_patterns rfl (patterns_retag s k tag)

theorem resolve?_retag (s : State) (k tag : Nat) (w : Window) (n : Nat) :
    (s.retag k tag).resolve? w n = (s.resolve? w n).map (retagFound k tag) := by
  simp only [State.resolve?, order_retag, matchAt_retag, List.map_findSome?]
  rfl

/-- Settles O20: SUPERSEDE retags the entry found and responds; each match attempt, and so the resolver in the same
order, finds what it found before, with the new tag. -/
theorem lookupAfterSupersedeSeesNewTag : Obligations.LookupAfterSupersedeSeesNewTag := by
  intro s t mid tag k e hn hk he hmid h
  have hfind : s.findMid mid = some k := findMid_of_nodup s hn ((entry?_eq_some s).mpr ⟨hk, he⟩) hmid
  obtain rfl := Host.Outcome.next.inj ((exec_supersede_found tag hfind).symm.trans h)
  have hreads := SameReads.of_respond (s.retag k tag) { s.blank .ok with tidx := k }
  exact ⟨fun w n => (hreads.resolve? w n).trans (resolve?_retag s k tag w n),
    fun w n j => (hreads.matchAt w n j).trans (matchAt_retag s k tag w n j)⟩

end Sys2Proof.Machine
end

section
/-! The Bit Matcher's answers (R130 to R141): when a template matches (R131, R134), what it says of each letter, in the
mask (R133) and in the value (R132, R136, R140), which bytes it reads (R141), templates of literals alone (R138), and
the MATCH command (R137). The walk itself is known from `matchEntry_eq_some`: the literals agree, and every field bit is
pushed (`pushAll`). -/

namespace Sys2Proof.Machine

open Sys2Proof.Stated

/-! ## When a template matches (R131, R134) -/

/-- Settles O31: the walk answers where the literals agree, and they agree position by position. -/
theorem matchIffFitsAndLiteralsAgree : Obligations.MatchIffFitsAndLiteralsAgree := by
  intro nSlots e w n
  simp only [matchEntry_isSome, litsAgree_iff, Nat.zero_add]

/-! ## The letters of a template (R133, R136) -/

theorem matchEntry_testBit {nSlots : Nat} {e : Entry} {w : Window} {n : Nat} {a : Acc}
    (h : matchEntry nSlots e w n = some a) (c : Nat) : a.present.testBit c = decide (Symbol.field c ∈ e.sym) := by
  obtain ⟨-, -, rfl⟩ := matchEntry_eq_some.mp h
  simp [pushAll_testBit, Acc.clear]

/-- Settles O33, by the mask of the walk that starts from an empty one. -/
theorem presentMaskMarksTheLetters : Obligations.PresentMaskMarksTheLetters := by
  intro nSlots e w n a h c
  rw [matchEntry_testBit h, decide_eq_true_iff]

/-- Settles O34: the mask marks the letters that occur, and the slot of another keeps the 0 it starts with. -/
theorem absentLettersReadZero : Obligations.AbsentLettersReadZero := by
  intro nSlots e w n c a hc h habsent
  refine ⟨by rw [matchEntry_testBit h, decide_eq_false habsent], ?_⟩
  obtain ⟨-, -, rfl⟩ := matchEntry_eq_some.mp h
  rw [pushAll_absent habsent, Acc.clear, List.getElem?_replicate, if_pos hc]

/-! ## The value of a letter (R132, R140) -/

/-- The positions of a letter from symbol index `i` on: its first symbol's, if it is that letter, and the rest's. -/
theorem map_positions_cons (i c : Nat) (x : Symbol) (l : List Symbol) : (positions c (x :: l)).map (i + ·) =
    (if x = .field c then [i] else []) ++ (positions c l).map (i + 1 + ·) := by
  have hrest : (positions c l).map (i + 1 + ·) = ((positions c l).map Nat.succ).map (i + ·) := by
    simp [Function.comp_def, Nat.add_assoc, Nat.add_comm 1]
  rw [hrest, positions, positions, List.length_cons, List.range_succ_eq_map, List.filter_cons, List.filter_map]
  by_cases hx : x = .field c
  · simp [hx, Function.comp_def]
  · simp [hx, Function.comp_def]

/-- A letter has as many positions as occurrences (R77). -/
theorem length_positions (c : Nat) (l : List Symbol) : (positions c l).length = l.count (.field c) := by
  induction l with
  | nil => rfl
  | cons x l ih =>
    have hcons := congrArg List.length (map_positions_cons 0 c x l)
    rw [List.length_map, List.length_append, List.length_map, ih] at hcons
    rw [hcons, List.count_cons, Nat.add_comm]
    by_cases hx : x = .field c
    · simp [hx]
    · simp [hx]

/-- A slot with value `v` after taking in the window bits at the positions listed, in order (R132). -/
def takeBits (w : Window) (is : List Nat) (v : FieldVal) : FieldVal :=
  is.foldl (fun u i => shiftIn u (windowBit w i)) v

@[simp] theorem takeBits_nil (w : Window) : takeBits w [] = id := rfl

@[simp] theorem takeBits_cons (w : Window) (i : Nat) (is : List Nat) :
    takeBits w (i :: is) = takeBits w is ∘ (shiftIn · (windowBit w i)) := rfl

/-- The walk pushes into a slot the bits at the positions of its letter. -/
theorem pushAll_fval (w : Window) (i c : Nat) (l : List Symbol) (a : Acc) :
    (pushAll w i l a).fval[c]? = a.fval[c]?.map (takeBits w ((positions c l).map (i + ·))) := by
  induction l generalizing i a with
  | nil => simp [pushAll, positions]
  | cons x l ih =>
    rw [map_positions_cons]
    cases x with
    | l0 => simp [pushAll, ih]
    | l1 => simp [pushAll, ih]
    | field d =>
      rw [pushAll, ih]
      by_cases hd : d = c
      · subst hd
        simp [push_fval_self]
      · simp [push_fval_ne a _ hd, hd]

/-- Taking bits in puts the old value above their sum, in the slot's 48 bits (R83, R132). -/
theorem takeBits_toNat (w : Window) (is : List Nat) (v : FieldVal) :
    (takeBits w is v).toNat = (v.toNat * 2 ^ is.length + weightedSum w is) % 2 ^ 48 := by
  induction is generalizing v with
  | nil => simp [weightedSum, Nat.mod_eq_of_lt v.isLt]
  | cons i is ih =>
    have hshift : (2 * v.toNat + (windowBit w i).toNat) * 2 ^ is.length + weightedSum w is =
        v.toNat * 2 ^ (i :: is).length + weightedSum w (i :: is) := by
      rw [List.length_cons, weightedSum]
      ring
    calc (takeBits w (i :: is) v).toNat
      _ = ((shiftIn v (windowBit w i)).toNat * 2 ^ is.length + weightedSum w is) % 2 ^ 48 := ih _
      _ = ((2 * v.toNat + (windowBit w i).toNat) * 2 ^ is.length + weightedSum w is) % 2 ^ 48 := by
        rw [shiftIn_toNat]
        exact ((Nat.mod_modEq _ _).mul_right _).add_right _
      _ = _ := by rw [hshift]

theorem weightedSum_lt (w : Window) (is : List Nat) : weightedSum w is < 2 ^ is.length := by
  induction is with
  | nil => simp [weightedSum]
  | cons i is ih =>
    have hbit : (windowBit w i).toNat * 2 ^ is.length ≤ 2 ^ is.length :=
      (Nat.mul_le_mul_right _ (Bool.toNat_le _)).trans_eq (Nat.one_mul _)
    rw [weightedSum, List.length_cons, pow_succ]
    omega

/-- The slots of a match: each holds the sum of its letter's bits, as far as 48 bits hold it (R132). -/
theorem matchEntry_fval {nSlots : Nat} {e : Entry} {w : Window} {n : Nat} {a : Acc}
    (h : matchEntry nSlots e w n = some a) (c : Nat) :
    a.fval[c]? = if c < nSlots then some (BitVec.ofNat 48 (weightedSum w (positions c e.sym))) else none := by
  obtain ⟨-, -, rfl⟩ := matchEntry_eq_some.mp h
  have hvalue : takeBits w (positions c e.sym) 0#48 = BitVec.ofNat 48 (weightedSum w (positions c e.sym)) :=
    BitVec.eq_of_toNat_eq (by simp [takeBits_toNat])
  rw [pushAll_fval, Acc.clear, List.getElem?_replicate]
  split
  · simp [hvalue]
  · rfl

/-- Settles O32: the sum of a letter's bits is below `2 ^ 48`, since the letter has at most 48 positions. -/
theorem fieldValueIsMsbFirstSum : Obligations.FieldValueIsMsbFirstSum := by
  intro nSlots e w n c a hlen hc h
  refine ⟨_, by rw [matchEntry_fval h, if_pos hc], ?_⟩
  have hpositions : (positions c e.sym).length ≤ 48 := by
    rw [length_positions]
    exact List.count_le_length.trans hlen
  exact Nat.mod_eq_of_lt ((weightedSum_lt w _).trans_le (Nat.pow_le_pow_right two_pos hpositions))

/-- Settles O35: the value is at most the sum of the letter's bits, one bit for each occurrence. -/
theorem fieldValueFitsItsWidth : Obligations.FieldValueFitsItsWidth := by
  intro nSlots e w n c a v h hv
  rw [matchEntry_fval h] at hv
  split at hv
  · obtain rfl := Option.some.inj hv
    rw [← length_positions, BitVec.toNat_ofNat]
    exact (Nat.mod_le _ _).trans_lt (weightedSum_lt w _)
  · cases hv

/-! ## The bytes a match reads (R141) -/

/-- Settles O36: a template that fits reads its own bytes alone. -/
theorem matchReadsOnlyItsOwnBytes : Obligations.MatchReadsOnlyItsOwnBytes :=
  fun _ _ _ _ _ _ hlen hsym hn hn' hw => matchEntry_congr_of_fits hlen hsym hn hn' hw

/-! ## Templates of literals alone (R138) -/

section Literals

variable {l : List Symbol} (hl : ∀ x ∈ l, isLiteral x = true)
include hl

/-- Literals agree with the window exactly when it spells them. -/
theorem litsAgree_iff_spells {w : Window} :
    litsAgree w 0 l ↔ ∀ i x, l[i]? = some x → literalPart x = some (windowBit w i) := by
  simp only [litsAgree_iff, Nat.zero_add]
  refine ⟨fun h i x hx => ?_, fun h i => ⟨fun h0 => ?_, fun h1 => ?_⟩⟩
  · cases x with
    | l0 => rw [(h i).1 hx, literalPart]
    | l1 => rw [(h i).2 hx, literalPart]
    | field c => exact absurd (hl _ (List.mem_of_getElem? hx)) (by simp [isLiteral])
  · exact (Option.some.inj (h i _ h0)).symm
  · exact (Option.some.inj (h i _ h1)).symm

/-- The walk over literals pushes nothing. -/
theorem pushAll_literals (w : Window) (i : Nat) (a : Acc) : pushAll w i l a = a :=
  pushAll_induction (P := (· = a)) l (fun _ _ _ hc _ => absurd (hl _ hc) (by simp [isLiteral])) i a rfl

end Literals

/-- Settles O37: literals agree exactly where the window spells them, and they leave the accumulator clear. -/
theorem literalTemplatesRoundTrip : Obligations.LiteralTemplatesRoundTrip := by
  intro nSlots e w n hl
  rw [← litsAgree_iff_spells hl]
  refine ⟨fun ⟨hn, hagree⟩ => matchEntry_eq_some.mpr ⟨hn, hagree, pushAll_literals hl w 0 _⟩, fun hmiss => ?_⟩
  exact Option.not_isSome_iff_eq_none.mp (mt matchEntry_isSome.mp hmiss)

/-! ## The MATCH command (R137) -/

section Match

variable {s : State} (k : Nat) (w : Window) (av : BitVec 3)

theorem exec_matchTemplate_of_build (hs : s.sealed = false) :
    exec (.matchTemplate k w av) s = .next (s.respond (s.blank .wrongPhase)) := by
  simp [exec, execMatchTemplate, hs]

theorem exec_matchTemplate_of_fault (hs : s.sealed = true) (hf : s.cfgFault = true) :
    exec (.matchTemplate k w av) s = .next (s.respond (s.blank .configFaulted)) := by
  simp [exec, execMatchTemplate, hs, hf]

variable (hready : s.Ready)
include hready

theorem exec_matchTemplate_of_absent {k : Nat} (hk : s.entry? k = none) :
    exec (.matchTemplate k w av) s = .next (s.respond (s.blank .badIndex)) := by
  obtain ⟨hs, hf⟩ := hready
  simp [exec, execMatchTemplate, hs, hf, hk]

variable {k w av} {e : Entry} (he : s.entry? k = some e)
include he

theorem exec_matchTemplate_of_miss (hm : matchEntry s.cfg.nSlots e w (validBytes av) = none) :
    exec (.matchTemplate k w av) s = .next (s.respond (s.blank .noMatch)) := by
  obtain ⟨hs, hf⟩ := hready
  simp [exec, execMatchTemplate, hs, hf, he, hm]

theorem exec_matchTemplate_of_hit {a : Acc} (hm : matchEntry s.cfg.nSlots e w (validBytes av) = some a) :
    exec (.matchTemplate k w av) s = .next (s.respond (hitResp k e a)) := by
  obtain ⟨hs, hf⟩ := hready
  simp [exec, execMatchTemplate, hs, hf, he, hm]

end Match

/-- Settles O38, by MATCH's five outcomes in the order of its checks. -/
theorem matchAnswersForOneEntry : Obligations.MatchAnswersForOneEntry := by
  refine ⟨fun cfg σ hcmd => by simp [decode, hcmd], fun s k w av => ⟨exec_matchTemplate_of_build k w av,
    exec_matchTemplate_of_fault k w av, fun hready hk => ?_, fun e hready hk he hm => ?_,
    fun e a hready hk he hm => ?_⟩⟩
  · exact exec_matchTemplate_of_absent w av hready (if_neg (by omega))
  · exact exec_matchTemplate_of_miss hready ((entry?_eq_some s).mpr ⟨hk, he⟩) hm
  · exact exec_matchTemplate_of_hit hready ((entry?_eq_some s).mpr ⟨hk, he⟩) hm

end Sys2Proof.Machine
end

section
/-! The Opcode Resolver (R160 to R169): `ORDER` is a permutation of the registered indices sorted by `before` (R160), so
the first match in it is the matching entry that comes before every other (R162). The statements about RESOLVE follow
from its four outcomes (R163, R164) and from what a hit on the port says of the resolver. -/

namespace Sys2Proof.Machine

open Sys2Proof.Stated

/-! ## The priority order (R30, R160) -/

theorem before_asymm {s : State} {j k : Nat} (h : before s j k) : ¬ before s k j := by
  simp only [before] at *
  omega

theorem specAt_le_of_before {s : State} {j k : Nat} (h : before s j k) : s.specAt k ≤ s.specAt j := by
  simp only [before] at h
  omega

/-- Inserting an index above all of a sorted list keeps it sorted: it goes behind every index of at least its
specificity, and ahead of the rest. -/
theorem orderInsert_pairwise_before {s : State} {k : Nat} {l : List Nat} (hl : l.Pairwise (before s))
    (hk : ∀ j ∈ l, j < k) : (orderInsert s.specAt k l).Pairwise (before s) := by
  induction l with
  | nil => exact List.pairwise_singleton _ _
  | cons j l ih =>
    obtain ⟨hj, hl'⟩ := List.pairwise_cons.mp hl
    obtain ⟨hjk, hk'⟩ := List.forall_mem_cons.mp hk
    unfold orderInsert
    split
    · next hle =>
      refine List.pairwise_cons.mpr ⟨fun x hx => ?_, ih hl' hk'⟩
      rcases List.mem_cons.mp ((orderInsert_perm _ k l).mem_iff.mp hx) with rfl | hx
      · exact (Nat.lt_or_eq_of_le hle).imp_right fun heq => ⟨heq.symm, hjk⟩
      · exact hj x hx
    · next hgt =>
      have hkj : s.specAt j < s.specAt k := Nat.lt_of_not_le hgt
      refine List.pairwise_cons.mpr ⟨List.forall_mem_cons.mpr ⟨.inl hkj, fun x hx => .inl ?_⟩, hl⟩
      exact (specAt_le_of_before (hj x hx)).trans_lt hkj

theorem priorityOrder_pairwise_before (s : State) (n : Nat) : (priorityOrder s.specAt n).Pairwise (before s) := by
  induction n with
  | zero => exact .nil
  | succ n ih =>
    rw [priorityOrder_succ]
    exact orderInsert_pairwise_before ih fun j hj =>
      List.mem_range.mp ((priorityOrder_perm_range s.specAt n).mem_iff.mp hj)

/-- Settles O39: `ORDER` grows by insertion, which adds one index and keeps the list sorted. -/
theorem orderSortsBySpecificity : Obligations.OrderSortsBySpecificity :=
  fun s => ⟨priorityOrder_perm_range s.specAt s.count, priorityOrder_pairwise_before s s.count⟩

theorem mem_order {s : State} {k : Nat} : k ∈ s.order ↔ k < s.count :=
  (priorityOrder_perm_range s.specAt s.count).mem_iff.trans List.mem_range

/-! ## The first match in the order (R161, R162) -/

theorem not_matchesAt {s : State} {w : Window} {n k : Nat} : ¬ matchesAt s w n k ↔ s.matchAt w n k = none := by
  rw [Option.eq_none_iff_forall_ne_some]
  refine ⟨fun hmiss x hx => ?_, fun hnone ⟨e, a, hm⟩ => hnone _ hm⟩
  obtain ⟨e, a, -, -, rfl⟩ := matchAt_eq_some.mp hx
  exact hmiss ⟨e, a, hx⟩

theorem resolve?_eq_none {s : State} {w : Window} {n : Nat} :
    s.resolve? w n = none ↔ ∀ k, k < s.count → ¬ matchesAt s w n k := by
  simp only [State.resolve?, List.findSome?_eq_none_iff, mem_order, not_matchesAt]

/-- What the resolver answers is a match, and comes before every other match: the indices ahead of it in `ORDER` miss,
and it comes before those behind it. -/
theorem resolve?_first {s : State} {w : Window} {n k : Nat} {e : Entry} {a : Acc}
    (h : s.resolve? w n = some (k, e, a)) :
    s.matchAt w n k = some (k, e, a) ∧ ∀ j, j < s.count → matchesAt s w n j → j ≠ k → before s k j := by
  obtain ⟨ahead, i, behind, horder, hi, hmiss⟩ := List.findSome?_eq_some_iff.mp h
  obtain ⟨e', a', -, -, hx⟩ := matchAt_eq_some.mp hi
  cases hx
  refine ⟨hi, fun j hj hm hjk => ?_⟩
  have hsorted : s.order.Pairwise (before s) := priorityOrder_pairwise_before s s.count
  have hmem : j ∈ s.order := mem_order.mpr hj
  rw [horder] at hsorted hmem
  rcases List.mem_append.mp hmem with hahead | hrest
  · exact absurd hm (not_matchesAt.mpr (hmiss j hahead))
  · have hbehind : j ∈ behind := List.mem_of_ne_of_mem hjk hrest
    obtain ⟨-, hpairwise, -⟩ := List.pairwise_append.mp hsorted
    exact List.rel_of_pairwise_cons hpairwise hbehind

/-- The match that comes before every other is the one the resolver answers. -/
theorem resolve?_of_first {s : State} {w : Window} {n k : Nat} {e : Entry} {a : Acc}
    (hm : s.matchAt w n k = some (k, e, a))
    (hfirst : ∀ j, j < s.count → matchesAt s w n j → j ≠ k → before s k j) :
    s.resolve? w n = some (k, e, a) := by
  have hmatches : matchesAt s w n k := ⟨e, a, hm⟩
  cases hr : s.resolve? w n with
  | none => exact absurd hmatches (resolve?_eq_none.mp hr k (matchAt_lt hm))
  | some x =>
    obtain ⟨k', e', a'⟩ := x
    obtain ⟨hm', hfirst'⟩ := resolve?_first hr
    by_cases hk : k' = k
    · subst hk
      exact hm'.symm.trans hm
    · have hkk' : before s k k' := hfirst k' (matchAt_lt hm') ⟨e', a', hm'⟩ hk
      exact absurd hkk' (before_asymm (hfirst' k (matchAt_lt hm) hmatches (Ne.symm hk)))

/-- Settles O40: no entry matches, or the resolver's answer is the match that comes before every other. -/
theorem resolveIsAPriorityEncoder : Obligations.ResolveIsAPriorityEncoder := by
  refine fun s w n => ⟨resolve?_eq_none, fun k e a => ⟨fun h => ?_, fun ⟨_, hm, hfirst⟩ => resolve?_of_first hm hfirst⟩⟩
  obtain ⟨hm, hfirst⟩ := resolve?_first h
  exact ⟨matchAt_lt hm, hm, hfirst⟩

/-! ## The RESOLVE command (R163, R164) -/

section Resolve

variable {s : State} (w : Window) (av : BitVec 3)

theorem exec_resolve_of_build (hs : s.sealed = false) :
    exec (.resolve w av) s = .next (s.respond (s.blank .wrongPhase)) := by
  simp [exec, execResolve, hs]

theorem exec_resolve_of_fault (hs : s.sealed = true) (hf : s.cfgFault = true) :
    exec (.resolve w av) s = .next (s.respond (s.blank .configFaulted)) := by
  simp [exec, execResolve, hs, hf]

variable {w av} (hready : s.Ready)
include hready

theorem exec_resolve_of_miss (hr : s.resolve? w (validBytes av) = none) :
    exec (.resolve w av) s = .next (s.respond { s.blank .noMatch with consume := 2 }) := by
  obtain ⟨hs, hf⟩ := hready
  simp [exec, execResolve, hs, hf, hr]

theorem exec_resolve_of_hit {k : Nat} {e : Entry} {a : Acc} (hr : s.resolve? w (validBytes av) = some (k, e, a)) :
    exec (.resolve w av) s = .next (s.respond (hitResp k e a)) := by
  obtain ⟨hs, hf⟩ := hready
  simp [exec, execResolve, hs, hf, hr]

end Resolve

/-- Settles O41, by RESOLVE's four outcomes in the order of its checks. -/
theorem resolveAnswersWithTheFirstMatch : Obligations.ResolveAnswersWithTheFirstMatch :=
  ⟨fun _ _ hcmd => by simp [decode, hcmd], fun _ w av => ⟨exec_resolve_of_build w av, exec_resolve_of_fault w av,
    exec_resolve_of_miss, fun _ _ _ hready hr => exec_resolve_of_hit hready hr⟩⟩

/-- Everything RESOLVE can respond (R163): a response that is no hit, or the hit on what the resolver answers. -/
theorem exec_resolve_cases {s t : State} {w : Window} {av : BitVec 3} (h : exec (.resolve w av) s = .next t) :
    (∃ r, t = s.respond r ∧ r.hit = false) ∨
    ∃ k e a, s.resolve? w (validBytes av) = some (k, e, a) ∧ t = s.respond (hitResp k e a) := by
  cases hs : s.sealed with
  | false => exact .inl ⟨_, Host.Outcome.next.inj (h.symm.trans (exec_resolve_of_build w av hs)), rfl⟩
  | true =>
    cases hf : s.cfgFault with
    | true => exact .inl ⟨_, Host.Outcome.next.inj (h.symm.trans (exec_resolve_of_fault w av hs hf)), rfl⟩
    | false =>
      cases hr : s.resolve? w (validBytes av) with
      | none => exact .inl ⟨_, Host.Outcome.next.inj (h.symm.trans (exec_resolve_of_miss ⟨hs, hf⟩ hr)), rfl⟩
      | some x =>
        obtain ⟨k, e, a⟩ := x
        exact .inr ⟨k, e, a, rfl, Host.Outcome.next.inj (h.symm.trans (exec_resolve_of_hit ⟨hs, hf⟩ hr))⟩

/-- What a response put on the served port shows there (R12, R31). -/
theorem eq_of_respond_resp {s : State} {r r' : Resp} (h : (s.respond r).resp[s.port]? = some r') :
    r' = { r with status := s.status, count := s.count } := by
  rw [respond_resp] at h
  obtain ⟨hp, hr⟩ := List.getElem?_eq_some_iff.mp h
  rw [← hr, List.getElem_set_self]

/-- A hit shown on the port is the hit on what the resolver answers (R163). -/
theorem resolve?_of_hit {s t : State} {w : Window} {av : BitVec 3} {r : Resp} (h : exec (.resolve w av) s = .next t)
    (hr : t.resp[s.port]? = some r) (hhit : r.hit = true) :
    ∃ k e a, s.resolve? w (validBytes av) = some (k, e, a) ∧ r = hitOf s k e a := by
  rcases exec_resolve_cases h with ⟨r', rfl, hmiss⟩ | ⟨k, e, a, hresolve, rfl⟩
  · rw [eq_of_respond_resp hr] at hhit
    exact absurd hhit (by simp [hmiss])
  · exact ⟨k, e, a, hresolve, eq_of_respond_resp hr⟩

/-- Settles O42: the entry of a hit is a match that comes before every other. -/
theorem resolveReturnsTheMostSpecific : Obligations.ResolveReturnsTheMostSpecific := by
  intro s t w av r h hr _ hhit
  obtain ⟨k, e, a, hresolve, rfl⟩ := resolve?_of_hit h hr hhit
  obtain ⟨hm, hfirst⟩ := resolve?_first hresolve
  refine ⟨matchAt_lt hm, ⟨e, a, hm⟩, fun j hj hjk hmj => ?_⟩
  have hbefore : before s k j := hfirst j hj hmj hjk
  exact ⟨specAt_le_of_before hbefore, fun heq => hbefore.elim (fun hlt => absurd heq hlt.ne) And.right⟩

/-- Settles O45: the entry of a hit is registered, so its length is a legal one. -/
theorem hitReportsTheTemplateLength : Obligations.HitReportsTheTemplateLength := by
  intro s t w av r e hwf h hr _ _ hhit he
  obtain ⟨k, e', a, hresolve, rfl⟩ := resolve?_of_hit h hr hhit
  obtain ⟨hm, -⟩ := resolve?_first hresolve
  obtain ⟨_, _, hentry, -, hx⟩ := matchAt_eq_some.mp hm
  cases hx
  obtain ⟨-, htbl⟩ := (entry?_eq_some s).mp hentry
  obtain rfl : e' = e := Option.some.inj (htbl.symm.trans he)
  obtain ⟨-, hlen, hsym, -⟩ := hwf.of_entry? hentry
  have hbytes : byteLen e'.nsym = 2 ∨ byteLen e'.nsym = 4 ∨ byteLen e'.nsym = 6 := by
    simpa using byteLen_of_patLengths hlen
  exact ⟨by rw [hsym]; rfl, rfl, hbytes⟩

/-! ## Shadowed entries (R168) -/

/-- An entry that misses wherever an earlier one misses is never the first match. -/
theorem resolve?_ne_of_shadowed {s : State} {k₁ k₂ : Nat} (hbefore : before s k₁ k₂)
    (hshadow : ∀ w n, matchesAt s w n k₂ → matchesAt s w n k₁) (w : Window) (n : Nat) (e : Entry) (a : Acc) :
    s.resolve? w n ≠ some (k₂, e, a) := by
  intro h
  obtain ⟨hm, hfirst⟩ := resolve?_first h
  obtain ⟨e₁, a₁, hm₁⟩ := hshadow w n ⟨e, a, hm⟩
  have hne : k₁ ≠ k₂ := fun heq => before_asymm hbefore (heq ▸ hbefore)
  exact before_asymm hbefore (hfirst k₁ (matchAt_lt hm₁) ⟨e₁, a₁, hm₁⟩ hne)

/-- Specificity counts the symbols that have a literal part (R75). -/
theorem specificity_eq_countP_literalPart (l : List Symbol) :
    specificity l = (l.map literalPart).countP Option.isSome := by
  rw [specificity, List.countP_map]
  refine List.countP_congr fun x _ => ?_
  cases x <;> rfl

/-- Which windows a template's literals agree with depends on the literals and their positions alone (R131). -/
theorem litsAgree_congr_literalPart {w : Window} {i : Nat} {l₁ l₂ : List Symbol}
    (h : l₁.map literalPart = l₂.map literalPart) : litsAgree w i l₁ ↔ litsAgree w i l₂ := by
  have hlit (l : List Symbol) : litsAgree w i l ↔
      ∀ j b, (l.map literalPart)[j]? = some (some b) → windowBit w (i + j) = b := by
    rw [litsAgree_iff]
    refine forall_congr' fun j => ?_
    rw [List.getElem?_map]
    cases l[j]? with
    | none => simp
    | some x => cases x <;> simp [literalPart]
  rw [hlit, hlit, h]

theorem matchesAt_iff {s : State} {w : Window} {n k : Nat} {e : Entry} (he : s.entry? k = some e) :
    matchesAt s w n k ↔ e.nsym / 8 ≤ n ∧ litsAgree w 0 e.sym := by
  rw [← matchEntry_isSome (n := s.cfg.nSlots), Option.isSome_iff_exists]
  simp [matchesAt, matchAt_eq_some, he]

/-- Settles O43: an earlier match always comes first; and templates with the same literals at the same positions have
the same length, the same specificity and the same matches. -/
theorem shadowedEntriesAreNeverReturned : Obligations.ShadowedEntriesAreNeverReturned := by
  refine ⟨fun s k₁ k₂ _ _ => resolve?_ne_of_shadowed, fun s k₁ k₂ e₁ e₂ hwf hlt hk₂ he₁ he₂ hlits => ?_⟩
  have hentry₁ : s.entry? k₁ = some e₁ := (entry?_eq_some s).mpr ⟨hlt.trans hk₂, he₁⟩
  have hentry₂ : s.entry? k₂ = some e₂ := (entry?_eq_some s).mpr ⟨hk₂, he₂⟩
  obtain ⟨-, -, hlen₁, hspec₁, -⟩ := hwf.of_entry? hentry₁
  obtain ⟨-, -, hlen₂, hspec₂, -⟩ := hwf.of_entry? hentry₂
  have hlength : e₁.nsym = e₂.nsym := by
    simpa [hlen₁, hlen₂] using congrArg List.length hlits
  have hspec : s.specAt k₁ = s.specAt k₂ := by
    rw [specAt_of_entry? hentry₁, specAt_of_entry? hentry₂, hspec₁, hspec₂, specificity_eq_countP_literalPart,
      specificity_eq_countP_literalPart, hlits]
  refine resolve?_ne_of_shadowed (.inr ⟨hspec, hlt⟩) fun w n hm => ?_
  rw [matchesAt_iff hentry₂] at hm
  rwa [matchesAt_iff hentry₁, hlength, litsAgree_congr_literalPart hlits]

/-! ## What a response depends on (R166) -/

theorem SameReads.trans {s t u : State} (hst : SameReads s t) (htu : SameReads t u) : SameReads s u :=
  ⟨htu.cfg.trans hst.cfg, htu.count.trans hst.count, htu.status.trans hst.status, htu.registered.trans hst.registered⟩

/-- An update leaves `STATUS` and `COUNT` alike in states that are read alike. -/
theorem SameReads.apply_stamp {s t : State} (h : SameReads s t) (f : Update) :
    (f.apply t).status = (f.apply s).status ∧ (f.apply t).count = (f.apply s).count := by
  cases f <;> simp [Update.apply, h.status, h.count]

/-- A command puts the same response on its port from states that are read alike, as long as both have that port. -/
theorem exec_response_congr {i : Instr} {s t s' t' : State} (hreads : SameReads s t)
    (hport : t.port < t.resp.length ↔ s.port < s.resp.length) (hs : exec i s = .next s') (ht : exec i t = .next t') :
    t'.resp[t.port]? = s'.resp[s.port]? := by
  obtain ⟨f, r, rfl, -, huniform⟩ := exec_uniform_of_next hs
  obtain rfl := Host.Outcome.next.inj ((huniform t hreads).symm.trans ht)
  obtain ⟨hstatus, hcount⟩ := hreads.apply_stamp f
  simp [List.getElem?_set, hstatus, hcount, hport]

/-- Lookups leave what a command reads, the port served and the number of ports. -/
theorem byLookups_frame {s t : State} (h : ByLookups s t) :
    SameReads s t ∧ t.port = s.port ∧ t.resp.length = s.resp.length := by
  induction h with
  | refl => exact ⟨.refl s, rfl, rfl⟩
  | tail t u i _ hi hexec ih =>
    obtain ⟨hreads, hport, hlen⟩ := ih
    obtain ⟨r, rfl⟩ := exec_lookup hi hexec
    exact ⟨hreads.trans (.of_respond t r), hport, by simpa using hlen⟩

/-- Settles O44: RESOLVE responds from what it reads, and neither the first RESOLVE nor the lookups after it change
that. -/
theorem resolveIsDeterministicAndIdempotent : Obligations.ResolveIsDeterministicAndIdempotent := by
  refine ⟨fun s t s' t' w av av' hcfg hcount hstatus hreg hav hs ht hexec hexec' => ?_,
    fun s t s' t' w av hexec hlookups hexec' => ?_⟩
  · have hvalid : validBytes av = validBytes av' := hav
    have hreads : SameReads s t := ⟨hcfg.symm, hcount.symm, hstatus.symm, hreg.symm⟩
    rw [exec_resolve_congr (av' := av) fun _ _ => by rw [hvalid]] at hexec'
    exact (exec_response_congr hreads (iff_of_true ht hs) hexec hexec').symm
  · obtain ⟨r, rfl⟩ := exec_lookup (i := .resolve w av) trivial hexec
    obtain ⟨hreads, hport, hlen⟩ := byLookups_frame hlookups
    have hreads' : SameReads s t := (SameReads.of_respond s r).trans hreads
    rw [respond_port] at hport
    have hlen' : t.resp.length = s.resp.length := by simpa using hlen
    have hresponse := exec_response_congr hreads' (by rw [hport, hlen']) hexec hexec'
    rwa [hport] at hresponse

end Sys2Proof.Machine
end

section
/-! The environment's driver step (R197 to R203): what RESOLVE answers in each condition of the block, what a step on
code makes of that answer, and which bytes of the buffer a step reads. -/

namespace Sys2Proof.Machine

open Sys2Proof.Stated

/-! ## What RESOLVE answers (R163, R198) -/

@[simp] theorem hitOf_rc (s : State) (k : Nat) (e : Entry) (a : Acc) : (hitOf s k e a).rc = .ok := rfl

section Answer

variable {s t : State} {w : Window} {av : BitVec 3} {q : Resp} (h : exec (.resolve w av) s = .next t)
  (hq : t.resp[s.port]? = some q)
include h hq

theorem resolve_rc_of_build (hs : s.sealed = false) : q.rc = .wrongPhase := by
  obtain rfl := Host.Outcome.next.inj (h.symm.trans (exec_resolve_of_build w av hs))
  exact congrArg Resp.rc (eq_of_respond_resp hq)

theorem resolve_rc_of_fault (hs : s.sealed = true) (hf : s.cfgFault = true) : q.rc = .configFaulted := by
  obtain rfl := Host.Outcome.next.inj (h.symm.trans (exec_resolve_of_fault w av hs hf))
  exact congrArg Resp.rc (eq_of_respond_resp hq)

/-- On a ready block RESOLVE answers a miss, or the hit on what the resolver answers. -/
theorem resolve_of_ready (hready : s.Ready) :
    q.rc = .noMatch ∨ ∃ k e a, s.resolve? w (validBytes av) = some (k, e, a) ∧ q = hitOf s k e a := by
  cases hr : s.resolve? w (validBytes av) with
  | none =>
    obtain rfl := Host.Outcome.next.inj (h.symm.trans (exec_resolve_of_miss hready hr))
    exact .inl (congrArg Resp.rc (eq_of_respond_resp hq))
  | some x =>
    obtain ⟨k, e, a⟩ := x
    obtain rfl := Host.Outcome.next.inj (h.symm.trans (exec_resolve_of_hit hready hr))
    exact .inr ⟨k, e, a, rfl, eq_of_respond_resp hq⟩

/-- The code `OK` is answered by a hit alone: a block that is not ready answers a fault code. -/
theorem resolve_of_ok (hok : q.rc = .ok) :
    ∃ k e a, s.resolve? w (validBytes av) = some (k, e, a) ∧ q = hitOf s k e a := by
  cases hs : s.sealed with
  | false => simp [resolve_rc_of_build h hq hs] at hok
  | true =>
    cases hf : s.cfgFault with
    | true => simp [resolve_rc_of_fault h hq hs hf] at hok
    | false => exact (resolve_of_ready h hq ⟨hs, hf⟩).resolve_left (by simp [hok])

/-- Under the invariant a hit consumes the length of its instruction, 2, 4 or 6 bytes (R76, R164). -/
theorem resolve_len_of_ok (hwf : s.Wf) (hok : q.rc = .ok) :
    q.consume = q.len ∧ (q.len = 2 ∨ q.len = 4 ∨ q.len = 6) := by
  obtain ⟨k, e, a, hresolve, rfl⟩ := resolve_of_ok h hq hok
  obtain ⟨hm, -⟩ := resolve?_first hresolve
  obtain ⟨_, _, hentry, -, hx⟩ := matchAt_eq_some.mp hm
  cases hx
  obtain ⟨-, hlen, -⟩ := hwf.of_entry? hentry
  have hbytes : byteLen e.nsym = 2 ∨ byteLen e.nsym = 4 ∨ byteLen e.nsym = 6 := by
    simpa using byteLen_of_patLengths hlen
  exact ⟨rfl, hbytes⟩

end Answer

/-! ## The step by what stands at the decode address (R197, R198, R203) -/

section Step

variable (env : Environment) (r : Reads) (labels : List JumpCallRecord) (s : State) {d : DriverState}

theorem driverStep_of_end (hend : d.endAddr ≤ d.addr) : driverStep env r labels s d = .done s d := by
  rw [driverStep, if_pos hend]

theorem driverStep_of_data (hrange : d.addr < d.endAddr) (hdata : 0 < dataLength env r d) :
    driverStep env r labels s d = .running s (driverData r (dataLength env r d) d) := by
  rw [driverStep, if_neg (Nat.not_le.mpr hrange), if_pos hdata]

variable {env r s}

/-- On code the step issues its RESOLVE, and the code of the answer says how it ends. -/
theorem driverStep_of_code (hrange : d.addr < d.endAddr) (hcode : dataLength env r d = 0)
    (hport : d.port < s.cfg.nLookupPorts) (hresp : d.port < s.resp.length) :
    ∃ t q, exec (driverResolve r d) { s with port := d.port } = .next t ∧ t.resp[d.port]? = some q ∧
      driverStep env r labels s d =
        if q.rc = .ok then .running t (driverHit env r labels q d)
        else if q.rc = .noMatch then .running t (driverDump r d)
        else .fault q.rc t d := by
  obtain ⟨t, q, hexec, -, hq⟩ := exec_completes (driverResolve r d) (s := { s with port := d.port }) hresp
  have hq' : t.resp[d.port]? = some q := hq
  refine ⟨t, q, hexec, hq', ?_⟩
  simp [driverStep, Nat.not_le.mpr hrange, hcode, issue_command s d.port _ hport, hexec, hq']

end Step

/-- Settles O52: on code the step ends as the code of RESOLVE's answer says, and that code is known from `STATUS`. -/
theorem driverStopsOnConfigurationFaults : Obligations.DriverStopsOnConfigurationFaults := by
  intro env r labels s d hport hresp
  refine ⟨driverStep_of_end env r labels s, fun hrange hcode => ?_⟩
  obtain ⟨t, q, hexec, hq, hstep⟩ := driverStep_of_code labels hrange hcode hport hresp
  refine ⟨fun hs => ⟨t, ?_⟩, fun hs hf => ⟨t, ?_⟩, fun hready => ⟨t, ?_⟩⟩
  · simp [hstep, resolve_rc_of_build hexec hq hs]
  · simp [hstep, resolve_rc_of_fault hexec hq hs hf]
  · rcases resolve_of_ready hexec hq hready with hmiss | ⟨k, e, a, -, rfl⟩
    · exact ⟨driverDump r d, by simp [hstep, hmiss]⟩
    · exact ⟨driverHit env r labels (hitOf { s with port := d.port } k e a) d, by rw [hstep, if_pos (hitOf_rc ..)]⟩

/-- Settles O51, by the three ways a step goes on: the classified length, a hit's length, or 2. -/
theorem driverAlwaysAdvances : Obligations.DriverAlwaysAdvances := by
  intro env r labels s t d d' hwf h
  obtain ⟨-, ⟨hdata, -, rfl⟩ | ⟨hcode, -, q, hexec, hq, ⟨hok, rfl⟩ | ⟨hmiss, rfl⟩⟩⟩ := driverStep_running h
  · exact ⟨by simpa using hdata, fun _ => rfl, fun hzero => absurd hzero hdata.ne'⟩
  · obtain ⟨hconsume, hlen⟩ := resolve_len_of_ok hexec hq hwf hok
    refine ⟨?_, fun hdata => absurd hcode hdata.ne', fun _ => ⟨q, hq, .inl ⟨hok, hlen, ?_⟩⟩⟩
    · rw [driverHit_addr]
      omega
    · rw [driverHit_addr, hconsume]
  · exact ⟨by simp, fun hdata => absurd hcode hdata.ne', fun _ => ⟨q, hq, .inr ⟨hmiss, rfl⟩⟩⟩

/-! ## Labels and references (R194 to R196) -/

theorem labelEntry_isLabelOf (env : Environment) (a : Nat) : isLabelOf env a (labelEntry env a) := by
  unfold labelEntry
  cases hname : env.nameFor a with
  | none => exact ⟨rfl, by simp [hname], fun _ => ⟨rfl, rfl⟩⟩
  | some x =>
    obtain ⟨name, comment⟩ := x
    refine ⟨rfl, fun name' comment' hsome => ?_, by simp [hname]⟩
    cases hname.symm.trans hsome
    exact ⟨rfl, rfl⟩

theorem labelFor_of_targeted (env : Environment) {rs : List JumpCallRecord} {a : Nat} (h : ∃ x ∈ rs, x.dst = a) :
    labelFor env rs a = some (labelEntry env a) := by
  rw [labelFor, if_pos (by simpa using h)]

theorem labelFor_of_untargeted (env : Environment) {rs : List JumpCallRecord} {a : Nat} (h : ∀ x ∈ rs, x.dst ≠ a) :
    labelFor env rs a = none := by
  rw [labelFor, if_neg (by simpa using h)]

/-- Settles O54: the references are the records to the address in their order, and there is a label where there is
one. -/
theorem labelsReflectTheRecords : Obligations.LabelsReflectTheRecords := by
  intro env rs a src dst kind
  refine ⟨by simp [labelFor], fun x hx => ?_, rfl, ?_, rfl, ?_⟩
  · obtain ⟨-, rfl⟩ : _ ∧ labelEntry env a = x := by simpa [labelFor] using hx
    exact labelEntry_isLabelOf env a
  · by_cases hdst : dst = a <;> simp [referencesTo, recordJump, hdst]
  · simp [firstReference, referencesTo, List.head?_filter, Bool.beq_eq_decide_eq]

/-! ## What a step puts out (R190 to R193, R197) -/

@[simp] theorem length_shownBytes (r : Reads) (d : DriverState) (n : Nat) : (shownBytes r d n).length = n := by
  simp [shownBytes]

theorem shownBytes_getElem? (r : Reads) (d : DriverState) {n j : Nat} (hj : j < n) :
    (shownBytes r d n)[j]? = some (r.shown (d.addr + j)) := by
  simp [shownBytes, hj]

section Hit

variable (env : Environment) (r : Reads) (q : Resp) {labels : List JumpCallRecord} {d : DriverState}

theorem driverHit_output_of_untargeted (h : ∀ x ∈ labels, x.dst ≠ d.addr) :
    (driverHit env r labels q d).output =
      d.output ++ [.instruction (emit env q d.addr) (shownBytes r d q.len)] := by
  simp [driverHit, labelLines, labelFor_of_untargeted env h]

theorem driverHit_output_of_targeted (h : ∃ x ∈ labels, x.dst = d.addr) :
    (driverHit env r labels q d).output =
      d.output ++ [.label (labelEntry env d.addr) (firstReference labels d.addr),
        .instruction (emit env q d.addr) (shownBytes r d q.len)] := by
  simp [driverHit, labelLines, labelFor_of_targeted env h]

theorem recordHit_of_none (h : env.target q.mid q.tag q.fmask q.fval d.addr = none) :
    recordHit env q d = d.records := by
  simp [recordHit, h]

theorem recordHit_of_some {x : Nat} (h : env.target q.mid q.tag q.fmask q.fval d.addr = some x) :
    recordHit env q d = d.records ++ [{ src := d.addr, dst := x, kind := q.mid }] := by
  simp [recordHit, h, recordJump]

end Hit

/-- Settles O55, by the three ways a step goes on and the lines and records of each. -/
theorem driverEmitsRecordsOrDumps : Obligations.DriverEmitsRecordsOrDumps := by
  refine fun env r labels s d hrange => ⟨fun hdata => ?_, fun t d' hcode h => ?_⟩
  · exact ⟨shownBytes r d _, length_shownBytes r d _, fun j => shownBytes_getElem? r d,
      driverStep_of_data env r labels s hrange hdata⟩
  · obtain ⟨-, ⟨hdata, -⟩ | ⟨-, -, q, -, hq, ⟨hok, rfl⟩ | ⟨hmiss, rfl⟩⟩⟩ := driverStep_running h
    · exact absurd hcode hdata.ne'
    · refine ⟨q, hq, rfl, fun _ => ⟨⟨emit env q d.addr, shownBytes r d q.len, rfl, rfl, rfl, rfl, rfl,
        length_shownBytes r d _, fun j => shownBytes_getElem? r d, driverHit_output_of_untargeted env r q,
        fun htarget => ⟨labelEntry env d.addr, labelEntry_isLabelOf env d.addr,
          driverHit_output_of_targeted env r q htarget⟩⟩,
        recordHit_of_none env q, fun x => recordHit_of_some env q⟩, fun hne => absurd hok hne⟩
    · exact ⟨q, hq, rfl, fun hok => by simp [hmiss] at hok, fun _ => ⟨hmiss, rfl, rfl⟩⟩

/-! ## What a step reads of the buffer, and what it keeps (R197, R203) -/

theorem driverStart?_eq_some {port bufLen start stop : Nat} {d : DriverState} :
    driverStart? port bufLen start stop = some d ↔ stop ≤ bufLen ∧ driverStart port bufLen start stop = d := by
  simp [driverStart?]

theorem driverStart?_eq_none {port bufLen start stop : Nat} :
    driverStart? port bufLen start stop = none ↔ bufLen < stop := by
  simp [driverStart?]

/-- A step that goes on keeps the end, the buffer length and the port of its walk. -/
theorem driverStep_running_frame {env : Environment} {r : Reads} {labels : List JumpCallRecord} {s t : State}
    {d d' : DriverState} (h : driverStep env r labels s d = .running t d') :
    d'.endAddr = d.endAddr ∧ d'.bufLen = d.bufLen ∧ d'.port = d.port := by
  obtain ⟨-, ⟨-, -, rfl⟩ | ⟨-, -, q, -, -, ⟨-, rfl⟩ | ⟨-, rfl⟩⟩⟩ := driverStep_running h <;> exact ⟨rfl, rfl, rfl⟩

theorem bytesLeft_lt_eight (d : DriverState) : bytesLeft d < 8 :=
  Nat.lt_of_le_of_lt (Nat.min_le_left ..) (by decide)

theorem windowByte_driverWindow (r : Reads) (d : DriverState) {j : Nat} (hj : j < 6) :
    windowByte (driverWindow r d) j = sampledByte r d j := by
  interval_cases j <;> rfl

section Buffer

variable {r r' : Reads} {d : DriverState}

/-- The classifier reads below `BUF_LEN` alone. -/
theorem dataLength_congr (env : Environment) (h : ∀ a, a < d.bufLen → r.classified a = r'.classified a) :
    dataLength env r d = dataLength env r' d := by
  have hbuffer : bufferOf d.bufLen r.classified = bufferOf d.bufLen r'.classified :=
    List.map_congr_left fun a ha => h a (List.mem_range.mp ha)
  rw [dataLength, hbuffer, dataLength]

/-- The window is read below `BUF_LEN` alone. -/
theorem driverResolve_congr (h : ∀ a, a < d.bufLen → r.sampled a = r'.sampled a) :
    driverResolve r d = driverResolve r' d := by
  have hbyte (j : Nat) : sampledByte r d j = sampledByte r' d j := ite_congr rfl (h _) fun _ => rfl
  simp only [driverResolve, driverWindow, hbyte]

/-- A step reads through the classifier, the window and the bytes it shows alone. -/
theorem driverStep_congr (env : Environment) (labels : List JumpCallRecord) (s : State)
    (hclass : dataLength env r d = dataLength env r' d) (hwindow : driverResolve r d = driverResolve r' d)
    (hshown : r.shown = r'.shown) : driverStep env r labels s d = driverStep env r' labels s d := by
  simp only [driverStep, hclass, hwindow, driverData, driverHit, driverDump, shownBytes, hshown]

end Buffer

/-- Settles O57: a walk starts by its test of `END`; what a step keeps, issues and reads is said once for each. -/
theorem driverStaysInTheBuffer : Obligations.DriverStaysInTheBuffer := by
  refine ⟨fun port bufLen start stop => ⟨fun hle => driverStart?_eq_some.mpr ⟨hle, rfl⟩, driverStart?_eq_none.mpr⟩,
    fun env r labels s t d d' => driverStep_running_frame, fun r d => ?_,
    fun env r labels s t d d' => ⟨fun h hcode => ?_, fun rc h => ?_⟩, fun env r r' labels s d hbuffer hshown => ?_⟩
  · refine ⟨driverWindow r d, BitVec.ofNat 3 (bytesLeft d), rfl, ?_, fun j hj => windowByte_driverWindow r d hj⟩
    rw [BitVec.toNat_ofNat, Nat.mod_eq_of_lt (bytesLeft_lt_eight d)]
    rfl
  · obtain ⟨-, ⟨hdata, -⟩ | ⟨-, -, q, hexec, -⟩⟩ := driverStep_running h
    · exact absurd hcode hdata.ne'
    · exact hexec
  · obtain ⟨-, -, -, -, q, hexec, -⟩ := driverStep_fault h
    exact hexec
  · exact driverStep_congr env labels s (dataLength_congr env fun a ha => (hbuffer a ha).2)
      (driverResolve_congr fun a ha => (hbuffer a ha).1) (funext hshown)

end Sys2Proof.Machine
end

section
/-! Several views of one block (R200 to R203): everything a view's turn can do, said once, and from it what a turn keeps
of a view and of the block. -/

namespace Sys2Proof.Machine

/-! ## What a driver step changes of the block (R58, R197) -/

/-- The two states differ at most in `RESP` and in the note of the port (log 3). -/
def SameButResp (s t : State) : Prop := t = { s with resp := t.resp, port := t.port }

theorem SameButResp.refl (s : State) : SameButResp s s := rfl

/-- The driver's command is a lookup, and a lookup on a port responds there and changes nothing else. -/
theorem sameButResp_of_driverResolve {r : Reads} {s t : State} {d : DriverState}
    (h : exec (driverResolve r d) { s with port := d.port } = .next t) : SameButResp s t := by
  obtain ⟨q, rfl⟩ := exec_lookup (i := driverResolve r d) trivial h
  rfl

section Step

variable {env : Environment} {r : Reads} {labels : List JumpCallRecord} {s t : State} {d d' : DriverState}

theorem sameButResp_of_running (h : driverStep env r labels s d = .running t d') : SameButResp s t := by
  obtain ⟨-, ⟨-, rfl, -⟩ | ⟨-, -, q, hexec, -⟩⟩ := driverStep_running h
  · exact .refl t
  · exact sameButResp_of_driverResolve hexec

theorem sameButResp_of_fault {rc : RespCode} (h : driverStep env r labels s d = .fault rc t d') :
    SameButResp s t := by
  obtain ⟨-, -, -, -, q, hexec, -⟩ := driverStep_fault h
  exact sameButResp_of_driverResolve hexec

end Step

/-! ## The turn of a view (R198, R200, R203)

First a turn of a displaying view, by how the driver step with its labels ends; then every turn. -/

section Turn

variable {env : Environment} {r : Reads} {s t : State} {v : View} {d : DriverState}

theorem turn_of_display_running (hp : v.phase = .displaying)
    (h : driverStep env r v.labels s v.display = .running t d) :
    v.turn env r s = (t, { v with display := d }.afterLine) := by
  simp [View.turn, hp, h]

theorem turn_of_display_done (hp : v.phase = .displaying)
    (h : driverStep env r v.labels s v.display = .done t d) :
    v.turn env r s = (t, { v with display := d, phase := .finished }) := by
  simp [View.turn, hp, h]

theorem turn_of_display_fault {rc : RespCode} (hp : v.phase = .displaying)
    (h : driverStep env r v.labels s v.display = .fault rc t d) :
    v.turn env r s = (t, { v with display := d, phase := .faulted rc }) := by
  simp [View.turn, hp, h]

theorem turn_of_display_noAnswer (hp : v.phase = .displaying)
    (h : driverStep env r v.labels s v.display = .noAnswer) :
    v.turn env r s = (s, { v with phase := .noAnswer }) := by
  simp [View.turn, hp, h]

end Turn

/-- A phase that shows no lines and takes no more turns, short of the walk's end (R198; log 3). -/
def Phase.Stopped (p : Phase) : Prop := p = .noAnswer ∨ ∃ rc, p = .faulted rc

/-- Everything a turn of view `v` on block `s` can lead to. -/
inductive TurnTo (env : Environment) (r : Reads) (s : State) (v : View) : State → View → Prop where
  /-- The scan goes on. -/
  | scanned (t : State) (c : DriverState) :
      v.phase = .scanning → driverStep env r [] s v.scan = .running t c → TurnTo env r s v t { v with scan := c }
  /-- The scan is complete: its records become the labels (R201). -/
  | completed :
      v.phase = .scanning → v.scan.endAddr ≤ v.scan.addr →
      TurnTo env r s v s { v with labels := v.scan.records, phase := .displaying }
  /-- One step of the walk that shows lines. -/
  | shown (t : State) (d : DriverState) :
      v.phase = .displaying → driverStep env r v.labels s v.display = .running t d →
      TurnTo env r s v t { v with display := d }.afterLine
  /-- The walk that shows lines is at its end (R203). -/
  | finished : v.phase = .displaying → TurnTo env r s v s { v with phase := .finished }
  /-- The scan or the walk stops with a fault or without an answer (R198). -/
  | stopped (t : State) (p : Phase) : p.Stopped → SameButResp s t → TurnTo env r s v t { v with phase := p }
  /-- The view takes no more turns. -/
  | idle : TurnTo env r s v s v

theorem turnTo_turn (env : Environment) (r : Reads) (s : State) (v : View) :
    TurnTo env r s v (v.turn env r s).1 (v.turn env r s).2 := by
  cases hp : v.phase with
  | scanning =>
    cases h : driverStep env r [] s v.scan with
    | running t c => simpa only [View.turn, hp, h] using TurnTo.scanned t c hp h
    | done t c =>
      obtain ⟨hend, rfl, rfl⟩ := driverStep_done h
      simp only [View.turn, hp, h]
      exact .completed hp hend
    | fault rc t c =>
      obtain ⟨rfl, -⟩ := driverStep_fault h
      simp only [View.turn, hp, h]
      exact .stopped t _ (.inr ⟨rc, rfl⟩) (sameButResp_of_fault h)
    | noAnswer =>
      simp only [View.turn, hp, h]
      exact .stopped s _ (.inl rfl) (.refl s)
  | displaying =>
    cases h : driverStep env r v.labels s v.display with
    | running t d =>
      rw [turn_of_display_running hp h]
      exact .shown t d hp h
    | done t d =>
      obtain ⟨-, rfl, rfl⟩ := driverStep_done h
      rw [turn_of_display_done hp h]
      exact .finished hp
    | fault rc t d =>
      obtain ⟨rfl, -⟩ := driverStep_fault h
      rw [turn_of_display_fault hp h]
      exact .stopped t _ (.inr ⟨rc, rfl⟩) (sameButResp_of_fault h)
    | noAnswer =>
      rw [turn_of_display_noAnswer hp h]
      exact .stopped s _ (.inl rfl) (.refl s)
  | finished => simpa [View.turn, hp] using TurnTo.idle
  | faulted rc => simpa [View.turn, hp] using TurnTo.idle
  | noAnswer => simpa [View.turn, hp] using TurnTo.idle

/-! ## What a turn keeps -/

section Kept

variable {env : Environment} {r : Reads} {s t : State} {v v' : View} (h : TurnTo env r s v t v')
include h

theorem TurnTo.sameButResp : SameButResp s t := by
  cases h with
  | scanned t c _ hstep => exact sameButResp_of_running hstep
  | completed _ _ => exact .refl s
  | shown t d _ hstep => exact sameButResp_of_running hstep
  | finished _ => exact .refl s
  | stopped t p _ hblock => exact hblock
  | idle => exact .refl s

/-- What a view has put out changes in the turns in which it displays alone. -/
theorem TurnTo.display_eq (hp : v.phase ≠ .displaying) : v'.display = v.display := by
  cases h with
  | shown t d hshow _ => exact absurd hshow hp
  | scanned | completed | finished | stopped | idle => rfl

/-- A view's turn keeps that its labels are the records of its own complete scan: the scan grows by a driver step, gives
its records when it is complete, or starts anew. -/
theorem TurnTo.sound (hv : v.Sound env) : v'.Sound env := by
  obtain ⟨hscan, hlabels, hscanBuf, hshowBuf⟩ := hv
  cases h with
  | scanned t c hp hstep =>
    obtain ⟨hend, hlen, hport⟩ := driverStep_running_frame hstep
    have hstart : View.scanStart { v with scan := c } = v.scanStart := by
      simp only [View.scanStart, hend, hlen, hport]
    refine ⟨?_, fun hshow => by simp [hp] at hshow, by simpa only [hend, hlen], hshowBuf⟩
    rw [hstart]
    exact .tail _ _ r s t hscan hstep
  | completed hp hend => exact ⟨hscan, fun _ => ⟨hend, rfl⟩, hscanBuf, hshowBuf⟩
  | shown t d hp hstep =>
    obtain ⟨hend, hlen, -⟩ := driverStep_running_frame hstep
    have hdisplay : d.endAddr ≤ d.bufLen := by rwa [hend, hlen]
    unfold View.afterLine
    split
    · exact ⟨hscan, hlabels, hscanBuf, hdisplay⟩
    · exact ⟨.refl, fun hshow => by simp at hshow, hscanBuf, hdisplay⟩
  | finished hp => exact ⟨hscan, fun _ => hlabels (.inl hp), hscanBuf, hshowBuf⟩
  | stopped t p hp _ =>
    refine ⟨hscan, fun hshow => ?_, hscanBuf, hshowBuf⟩
    rcases hp with rfl | ⟨rc, rfl⟩ <;> simp at hshow
  | idle => exact ⟨hscan, hlabels, hscanBuf, hshowBuf⟩

end Kept

/-- A view starts with its scan at the start and no labels, and both its windows lie in the buffer. -/
theorem start?_sound {env : Environment} {policy : ScanPolicy} {port bufLen scanFrom scanTo start stop : Nat} {v : View}
    (h : View.start? policy port bufLen scanFrom scanTo start stop = some v) : v.Sound env := by
  unfold View.start? at h
  split at h
  · next c d hc hd =>
    obtain ⟨hscanTo, rfl⟩ := driverStart?_eq_some.mp hc
    obtain ⟨hstop, rfl⟩ := driverStart?_eq_some.mp hd
    cases h
    exact ⟨.refl, fun hshow => by simp at hshow, hscanTo, hstop⟩
  · cases h

/-! ## The actions around the block (R61, R201) -/

/-- Where view `i` acts, the block and that view go on by its turn, and no other view changes. -/
theorem act_view {env : Environment} {w w' : World} {i : Nat} {r : Reads} {v : View} (hv : w.views[i]? = some v)
    (h : w.act env (.view i r) = some w') :
    w'.block = (v.turn env r w.block).1 ∧ w'.views[i]? = some (v.turn env r w.block).2 := by
  rcases act_cases h with ⟨j, r', u, ha, hu, hblock, hviews⟩ | ⟨e, ha, -⟩
  · cases ha
    obtain rfl : v = u := Option.some.inj (hv.symm.trans hu)
    obtain ⟨hi, -⟩ := List.getElem?_eq_some_iff.mp hv
    exact ⟨hblock, by rw [hviews, List.getElem?_set_self hi]⟩
  · cases ha

theorem act_sound {env : Environment} {w w' : World} {a : Action} (hsound : ∀ v ∈ w.views, v.Sound env)
    (h : w.act env a = some w') : ∀ v ∈ w'.views, v.Sound env := by
  intro v' hv'
  rcases act_cases h with ⟨i, r, v, -, hv, -, hviews⟩ | ⟨e, -, -, hviews⟩
  · rw [hviews] at hv'
    rcases List.mem_or_eq_of_mem_set hv' with hold | rfl
    · exact hsound v' hold
    · exact (turnTo_turn env r w.block v).sound (hsound v (List.mem_of_getElem? hv))
  · rw [hviews] at hv'
    exact hsound v' hv'

/-- An action changes the views that act alone, and a view's action no more of the block than `RESP` and the note of the
port. -/
theorem act_frame {env : Environment} {w w' : World} {a : Action} (h : w.act env a = some w') :
    (∀ i, (∀ r, a ≠ .view i r) → w'.views[i]? = w.views[i]?) ∧
    ((∀ e, a ≠ .event e) → SameButResp w.block w'.block) := by
  rcases act_cases h with ⟨i, r, v, rfl, -, hblock, hviews⟩ | ⟨e, rfl, -, hviews⟩
  · refine ⟨fun j hj => ?_, fun _ => ?_⟩
    · have hij : i ≠ j := fun heq => hj r (heq ▸ rfl)
      rw [hviews, List.getElem?_set_ne hij]
    · rw [hblock]
      exact (turnTo_turn env r w.block v).sameButResp
  · exact ⟨fun j _ => by rw [hviews], fun hno => absurd rfl (hno e)⟩

/-- Settles O58, by what each turn keeps of a view and of the block, and by the turns of a displaying view. -/
theorem labelsComeFromTheViewsOwnCompleteScan : Obligations.LabelsComeFromTheViewsOwnCompleteScan := by
  refine ⟨fun env policy port bufLen scanFrom scanTo start stop v => start?_sound,
    fun env w w' a => act_sound, fun env w w' i r v hv h => ?_, fun env w w' a => act_frame⟩
  obtain ⟨hblock, hviews⟩ := act_view hv h
  refine ⟨_, hviews, (turnTo_turn env r w.block v).display_eq, fun hp => ⟨fun t d hstep => ?_, fun t d hstep => ?_,
    fun rc t d hstep => ?_, fun hstep => ?_⟩⟩
  · rw [hblock, turn_of_display_running hp hstep]
    exact ⟨rfl, afterLine_display _⟩
  · obtain ⟨-, -, rfl⟩ := driverStep_done hstep
    rw [hblock, turn_of_display_done hp hstep]
    exact ⟨rfl, rfl, rfl⟩
  · obtain ⟨rfl, -⟩ := driverStep_fault hstep
    rw [hblock, turn_of_display_fault hp hstep]
    exact ⟨rfl, rfl, rfl⟩
  · rw [turn_of_display_noAnswer hp hstep]

end Sys2Proof.Machine
end

section
/-! What a command that does not answer `OK` changes (R220, R221), the idle step (R237), and a walk over a ready block
(R199, R238): every command but REGISTER leaves the block ready (`StaysReady`), so each driver step before the end goes
on, each raises the address, and the steps suffice. -/

namespace Sys2Proof.Machine

open Sys2Proof.Stated

/-! ## The codes and the idle step (R221, R237) -/

/-- Settles O56, code by code of the table. -/
theorem responseCodesHaveTheTableValues : Obligations.ResponseCodesHaveTheTableValues :=
  ⟨rfl, rfl, rfl, rfl, rfl, rfl, rfl, rfl, rfl, rfl⟩

/-- Settles O6, by the step on an empty list of events. -/
theorem idleStepHoldsTheState : Obligations.IdleStepHoldsTheState := fun _ hi => step_idle hi

/-! ## Error responses (R220, R221) -/

/-- The code shown on the served port is that of the response put there (R12). -/
theorem rc_of_respond {s : State} {q r : Resp} (h : (s.respond q).resp[s.port]? = some r) : r.rc = q.rc := by
  rw [eq_of_respond_resp h]

/-- Settles O49, by the inversion of a command: SEAL's success, an appended or a retagged entry and a hit answer `OK`;
a rejection and a missed SUPERSEDE set their bit; every other answer only responds. -/
theorem errorsArePrecise : Obligations.ErrorsArePrecise := by
  intro i s t r _ h hr hrc
  obtain ⟨u, q, rfl, hcase⟩ := exec_cases h
  rcases hcase with ⟨rfl, hreg, hq⟩ | ⟨-, -, rfl, rfl⟩ | ⟨mid, p, tag, rc, hi, rfl, -, -⟩ |
    ⟨mid, tag, -, -, rfl, rfl⟩ | ⟨mid, p, tag, c, -, -, -, -, -, rfl, rfl⟩ | ⟨mid, tag, k, -, -, rfl, rfl⟩
  · refine .inr (.inr ⟨hreg, ?_, rfl⟩)
    rw [rc_of_respond hr]
    rcases hq with ⟨rc, rfl, hne⟩ | rfl | ⟨w, n, k, e, a, -, rfl⟩
    · exact hne
    · simp
    · simp
  · exact absurd (rc_of_respond hr) hrc
  · exact .inl ⟨⟨mid, p, tag, hi⟩, rfl⟩
  · exact .inr (.inl ⟨rc_of_respond hr, rfl⟩)
  · exact absurd (rc_of_respond hr) hrc
  · exact absurd (rc_of_respond hr) hrc

/-! ## What leaves a block ready (R106, R238) -/

/-- `t` is well-formed and ready for a decode run, with the parameters, `COUNT` and patterns of `s`. -/
structure StaysReady (s t : State) : Prop where
  wf : t.Wf
  ready : t.Ready
  cfg : t.cfg = s.cfg
  count : t.count = s.count
  patterns : t.tbl.map Entry.pattern = s.tbl.map Entry.pattern

theorem StaysReady.refl {s : State} (hwf : s.Wf) (hready : s.Ready) : StaysReady s s := ⟨hwf, hready, rfl, rfl, rfl⟩

theorem StaysReady.trans {s t u : State} (hst : StaysReady s t) (htu : StaysReady t u) : StaysReady s u :=
  ⟨htu.wf, htu.ready, htu.cfg.trans hst.cfg, htu.count.trans hst.count, htu.patterns.trans hst.patterns⟩

/-- The registered patterns are the patterns of the table below `COUNT` (R23, R38). -/
theorem patternsOf_eq_take (s : State) : patternsOf s = (s.tbl.map Entry.pattern).take s.count := by
  rw [patternsOf, State.registered, List.map_take]
  rfl

theorem StaysReady.patternsOf_eq {s t : State} (h : StaysReady s t) : patternsOf t = patternsOf s := by
  rw [patternsOf_eq_take, h.patterns, h.count, patternsOf_eq_take]

/-- No command changes the parameters (R8, log 1). -/
theorem exec_cfg {i : Instr} {s t : State} (h : exec i s = .next t) : t.cfg = s.cfg := by
  obtain ⟨f, r, rfl, -⟩ := exec_uniform_of_next h
  cases f <;> rfl

/-- On a ready block only REGISTER can record a configuration fault, and no command unseals (R25, R26). -/
theorem exec_ready {i : Instr} {s t : State} (hready : s.Ready) (hreg : ∀ mid p tag, i ≠ .register mid p tag)
    (h : exec i s = .next t) : t.Ready := by
  obtain ⟨hs, hf⟩ := hready
  obtain ⟨u, r, rfl, hcase⟩ := exec_cases h
  rcases hcase with ⟨rfl, -⟩ | ⟨-, -, rfl, -⟩ | ⟨mid, p, tag, rc, hi, -⟩ | ⟨mid, tag, -, -, rfl, -⟩ |
    ⟨mid, p, tag, c, hi, -⟩ | ⟨mid, tag, k, -, -, -, rfl⟩
  · exact ⟨hs, hf⟩
  · exact ⟨by simp, by simpa using hf⟩
  · exact absurd hi (hreg mid p tag)
  · exact ⟨by simpa using hs, by simpa using hf⟩
  · exact absurd hi (hreg mid p tag)
  · exact ⟨hs, hf⟩

/-- A command other than REGISTER, served on any port, leaves a ready block ready. -/
theorem exec_staysReady {i : Instr} {s t : State} {p : Nat} (hwf : s.Wf) (hready : s.Ready)
    (hreg : ∀ mid pat tag, i ≠ .register mid pat tag)
    (hsup : ∀ mid tag, i = .supersede mid tag → tag < 2 ^ s.cfg.tagW)
    (h : exec i { s with port := p } = .next t) : StaysReady s t := by
  have hwf' : t.Wf :=
    exec_wf (s := { s with port := p }) hwf (fun mid pat tag hi => absurd hi (hreg mid pat tag)) hsup h
  have hready' : t.Ready := exec_ready (s := { s with port := p }) hready hreg h
  obtain ⟨hcount, hpat⟩ := exec_sealed_patterns (s := { s with port := p }) hready.left h
  exact ⟨hwf', hready', exec_cfg (s := { s with port := p }) h, hcount, hpat⟩

/-- Another user's harmless event is taken, and leaves a ready block ready (R238). -/
theorem issue_harmless {s : State} {e : Event} (hwf : s.Wf) (hready : s.Ready) (he : e.Harmless s.cfg) :
    ∃ t, s.issue e = .next t ∧ StaysReady s t := by
  cases e with
  | rst p => exact he.elim
  | command p σ =>
    obtain ⟨hp, hreg⟩ := he
    obtain ⟨t, ht⟩ := exec_next (decode s.cfg σ) { s with port := p }
    exact ⟨t, (issue_command s p σ hp).trans ht,
      exec_staysReady hwf hready hreg (fun _ _ => decode_supersede_fits) ht⟩

/-! ## The walk (R197, R199, R203) -/

theorem SameButResp.trans {s t u : State} (hst : SameButResp s t) (htu : SameButResp t u) : SameButResp s u := by
  unfold SameButResp at hst htu ⊢
  rw [htu, hst]

section Walk

variable {env : Environment} {labels : List JumpCallRecord}

theorem driverStep_staysReady {r : Reads} {s t : State} {d d' : DriverState} (hwf : s.Wf) (hready : s.Ready)
    (h : driverStep env r labels s d = .running t d') : StaysReady s t := by
  obtain ⟨-, ⟨-, rfl, -⟩ | ⟨-, -, q, hexec, -⟩⟩ := driverStep_running h
  · exact .refl hwf hready
  · exact exec_staysReady hwf hready (fun _ _ _ hi => by cases hi) (fun _ _ hi => by cases hi) hexec

/-- Before the end, a driver step on a ready block goes on: over data without a command, over code because RESOLVE
answers no fault (R198). -/
theorem driverStep_running_of_ready (r : Reads) {s : State} {d : DriverState} (hwf : s.Wf) (hready : s.Ready)
    (hport : d.port < s.cfg.nLookupPorts) (hrange : d.addr < d.endAddr) :
    ∃ t d', driverStep env r labels s d = .running t d' := by
  have ⟨_, _, _, _, _, _, hports, _⟩ := hwf
  rcases Nat.eq_zero_or_pos (dataLength env r d) with hcode | hdata
  · obtain ⟨-, honCode⟩ := driverStopsOnConfigurationFaults env r labels s d hport (hports ▸ hport)
    obtain ⟨-, -, hgoesOn⟩ := honCode hrange hcode
    exact hgoesOn hready
  · exact ⟨s, _, driverStep_of_data env r labels s hrange hdata⟩

/-- A walk over a ready block ends done once it has one step more than bytes left: by induction on the turns, where
another user's event leaves the range, and a driver step before the end goes on and shortens it. -/
theorem driverWalk_done_of_ready {turns : List Turn} {s : State} {d : DriverState} (hwf : s.Wf) (hready : s.Ready)
    (hport : d.port < s.cfg.nLookupPorts) (hothers : ∀ e, Turn.other e ∈ turns → e.Harmless s.cfg)
    (hsteps : d.endAddr - d.addr < stepsOf turns) :
    ∃ t d', driverWalk env labels turns s d = .done t d' ∧ d'.endAddr = d.endAddr ∧ d.endAddr ≤ d'.addr ∧
      StaysReady s t ∧ ((∀ e, Turn.other e ∉ turns) → SameButResp s t) := by
  induction turns generalizing s d with
  | nil => exact absurd hsteps (Nat.not_lt_zero _)
  | cons tn rest ih =>
    cases tn with
    | other e =>
      obtain ⟨s', hissue, hkeep⟩ := issue_harmless hwf hready (hothers e List.mem_cons_self)
      obtain ⟨t, d', hwalk, hend, hstop, hkeep', -⟩ := ih hkeep.wf hkeep.ready (hkeep.cfg ▸ hport)
        (fun e' he' => hkeep.cfg ▸ hothers e' (List.mem_cons_of_mem _ he')) hsteps
      exact ⟨t, d', by simp [driverWalk, hissue, hwalk], hend, hstop, hkeep.trans hkeep',
        fun hnone => absurd List.mem_cons_self (hnone e)⟩
    | mine r =>
      rcases Nat.lt_or_ge d.addr d.endAddr with hrange | hend
      · obtain ⟨s', d₁, hstep⟩ : ∃ s' d₁, driverStep env r labels s d = .running s' d₁ :=
          driverStep_running_of_ready r hwf hready hport hrange
        have hkeep : StaysReady s s' := driverStep_staysReady hwf hready hstep
        obtain ⟨hadvance, -⟩ := driverAlwaysAdvances env r labels s s' d d₁ hwf hstep
        obtain ⟨hend₁, -, hport₁⟩ := driverStep_running_frame hstep
        have hsteps₁ : d₁.endAddr - d₁.addr < stepsOf rest := by
          simp only [stepsOf] at hsteps
          omega
        obtain ⟨t, d', hwalk, hend, hstop, hkeep', hframe⟩ := ih hkeep.wf hkeep.ready
          (by rwa [hport₁, hkeep.cfg]) (fun e he => hkeep.cfg ▸ hothers e (List.mem_cons_of_mem _ he)) hsteps₁
        exact ⟨t, d', by simp [driverWalk, hstep, hwalk], hend.trans hend₁, hend₁ ▸ hstop, hkeep.trans hkeep',
          fun hnone => (sameButResp_of_running hstep).trans
            (hframe fun e he => hnone e (List.mem_cons_of_mem _ he))⟩
      · exact ⟨s, d, by simp [driverWalk, driverStep_of_end env r labels s hend], rfl, hend, .refl hwf hready,
          fun _ => .refl s⟩

end Walk

/-- Settles O53: the walk ends done on a block that stays ready, with the parameters, `COUNT` and patterns it had. -/
theorem readyWalkEndsDone : Obligations.ReadyWalkEndsDone := by
  intro env labels turns s d hwf hready hport hothers hsteps
  obtain ⟨t, d', hwalk, hend, hstop, hkeep, hframe⟩ := driverWalk_done_of_ready hwf hready hport hothers hsteps
  exact ⟨t, d', hwalk, hend, hstop, hkeep.ready, hkeep.cfg, hkeep.count, hkeep.patternsOf_eq, hframe⟩

end Sys2Proof.Machine
end

section
/-! Reset and boot (R250 to R254): the reset event, the status that SEAL shows, and the boot sequence. Each REGISTER of
the sequence finds the block able to accept it (`Accepts`) and adds its template to those registered (`Loaded`); SEAL
then ends the build phase with no fault recorded. -/

namespace Sys2Proof.Machine

open Sys2Proof.Stated

/-! ## Reset (R250, R251) -/

/-- Settles O10, by the step on `rst`: the block starts over, and right after reset every `RESP` is all 0. -/
theorem rstRestoresTheResetState : Obligations.RstRestoresTheResetState := by
  intro s p rest hi hp
  exact ⟨_, step_rst hi hp, rfl, rfl, rfl, List.take_zero, rfl, rfl⟩

/-! ## The status that SEAL shows (R25, R28, R254) -/

/-- A byte whose bits 7 to 3 are 0 has no bit from 3 on (R28). -/
theorem getLsbD_of_reserved {b : BitVec 8} (h : b &&& 0xF8#8 = 0) {j : Nat} (hj : 3 ≤ j) : b.getLsbD j = false := by
  by_cases h8 : j < 8
  · have hmask : (0xF8#8).getLsbD j = true := by interval_cases j <;> rfl
    have hand : (b &&& 0xF8#8).getLsbD j = false := by rw [h]; exact BitVec.getLsbD_zero
    simpa [BitVec.getLsbD_and, hmask] using hand
  · exact BitVec.getLsbD_of_ge b j (by omega)

/-- Where the reserved bits are 0, `STATUS` is known from its three flags (R25, R28). -/
theorem status_eq_iff {s : State} {b : BitVec 8} (hs : s.status &&& 0xF8#8 = 0) (hb : b &&& 0xF8#8 = 0) :
    s.status = b ↔
      s.sealed = b.getLsbD 0 ∧ s.cfgFault = b.getLsbD 1 ∧ s.supersedeMiss = b.getLsbD 2 := by
  refine ⟨fun h => h ▸ ⟨rfl, rfl, rfl⟩, fun ⟨hsealed, hfault, hmiss⟩ => BitVec.eq_of_getLsbD_eq fun j _ => ?_⟩
  match j with
  | 0 => exact hsealed
  | 1 => exact hfault
  | 2 => exact hmiss
  | j + 3 => rw [getLsbD_of_reserved hs (by omega), getLsbD_of_reserved hb (by omega)]

/-- SEAL sets no reserved bit (R28, R108). -/
theorem setSealed_reserved {s : State} (h : s.status &&& 0xF8#8 = 0) : s.setSealed.status &&& 0xF8#8 = 0 := by
  rw [setSealed_status, BitVec.and_comm, BitVec.and_or_distrib_left, BitVec.and_comm, h]
  rfl

/-- What SEAL shows on its port in the build phase: `STATUS` with `SEALED` set, and `COUNT` (R108). -/
theorem resp_of_sealTable {s t : State} {r : Resp} (hs : s.sealed = false) (h : exec .sealTable s = .next t)
    (hr : t.resp[s.port]? = some r) : r.status = s.setSealed.status ∧ r.count = s.count := by
  obtain rfl := Host.Outcome.next.inj ((exec_sealTable_of_build hs).symm.trans h)
  have hshown := eq_of_respond_resp (s := s.setSealed) hr
  exact ⟨congrArg Resp.status hshown, congrArg Resp.count hshown⟩

/-- Settles O22: SEAL leaves the flags of the two kinds of fault, and with the reserved bits 0 the status it shows is
known from them. -/
theorem sealStatusIsTheBootCheck : Obligations.SealStatusIsTheBootCheck := by
  intro s t r hreserved hs h hr
  obtain ⟨hstatus, hcount⟩ := resp_of_sealTable hs h hr
  have hshown (b : BitVec 8) := status_eq_iff (b := b) (setSealed_reserved hreserved)
  have hfault : r.status.getLsbD 1 = s.cfgFault := by rw [hstatus]; exact cfgFault_setSealed s
  refine ⟨?_, ?_, by rw [hfault], hcount⟩
  · rw [hstatus, hshown 0x01#8 rfl]
    simp
  · rw [hstatus, hshown 0x05#8 rfl]
    simp

/-! ## The boot sequence (R253) -/

/-- An entry's identifier and tag, with its pattern as `Compile` answers it (R103). -/
def Entry.template (e : Entry) : Nat × Nat × Option Compiled :=
  (e.mid, e.tag, some { nsym := e.nsym, spec := e.spec, sym := e.sym })

/-- The same of a template that REGISTER is given (identifier, pattern, tag). -/
def templateOf (cfg : Config) (x : Nat × PatStr × Nat) : Nat × Nat × Option Compiled :=
  (x.1, x.2.2, compile cfg x.2.1)

/-- The block is in phase BUILD and can register the templates `ts` on port `p`: they fit the port and compile, there is
room for them, and no identifier occurs twice among them and the registered entries (R102). -/
structure Accepts (p : Nat) (ts : List (Nat × PatStr × Nat)) (s : State) : Prop where
  build : s.sealed = false
  port : p < s.cfg.nLookupPorts
  table : s.tbl.length = s.cfg.nTemplates
  room : s.count + ts.length ≤ s.cfg.nTemplates
  distinct : (s.registered.map Entry.mid ++ ts.map (fun x => x.1)).Nodup
  compiles : ∀ x ∈ ts,
    (Instr.register x.1 x.2.1 x.2.2).wellFormed s.cfg = true ∧ (compile s.cfg x.2.1).isSome

/-- `t` is `s` with the templates `ts` registered behind what `s` holds, and no status bit set. -/
structure Loaded (ts : List (Nat × PatStr × Nat)) (s t : State) : Prop where
  cfg : t.cfg = s.cfg
  status : t.status = s.status
  count : t.count = s.count + ts.length
  templates : t.registered.map Entry.template = s.registered.map Entry.template ++ ts.map (templateOf s.cfg)

theorem Loaded.refl (s : State) : Loaded [] s s := ⟨rfl, rfl, rfl, by simp⟩

theorem Loaded.cons {x : Nat × PatStr × Nat} {ts : List (Nat × PatStr × Nat)} {s t u : State}
    (hst : Loaded [x] s t) (htu : Loaded ts t u) : Loaded (x :: ts) s u where
  cfg := htu.cfg.trans hst.cfg
  status := htu.status.trans hst.status
  count := by rw [htu.count, hst.count, List.length_singleton, List.length_cons]; omega
  templates := by rw [htu.templates, hst.templates, hst.cfg]; simp

/-- The entry REGISTER writes for a pattern that compiles (R102). -/
def entryOfCompiled (mid tag : Nat) (c : Compiled) : Entry :=
  { mid := mid, tag := tag, nsym := c.nsym, spec := c.spec, sym := c.sym }

@[simp] theorem mid_entryOfCompiled (mid tag : Nat) (c : Compiled) : (entryOfCompiled mid tag c).mid = mid := rfl

@[simp] theorem template_entryOfCompiled (mid tag : Nat) (c : Compiled) :
    (entryOfCompiled mid tag c).template = (mid, tag, some c) := rfl

/-- A REGISTER that passes its checks, announced on a port the block has, appends its entry and responds (R102). -/
theorem step_register {s : State} {p mid tag : Nat} {pat : PatStr} {c : Compiled} {rest : List Event}
    (hi : s.input = .command p (encode (.register mid pat tag)) :: rest) (hp : p < s.cfg.nLookupPorts)
    (hfits : (Instr.register mid pat tag).wellFormed s.cfg = true) (hs : s.sealed = false)
    (hc : compile s.cfg pat = some c) (hm : fresh s mid) (hn : s.count < s.cfg.nTemplates) :
    step s = .next (({ s with port := p, input := rest }.append (entryOfCompiled mid tag c)).respond
      { s.blank .ok with tidx := s.count }) :=
  (step_command hi hp (decodeOfEncodeIsTheCommand s.cfg _ hfits)).trans
    (exec_register_ok (s := { s with port := p, input := rest }) tag hs hc hm hn)

/-- The first REGISTER of a sequence the block can accept adds its template, and the block can accept the rest. -/
theorem step_register_of_accepts {p : Nat} {x : Nat × PatStr × Nat} {ts : List (Nat × PatStr × Nat)} {s : State}
    {rest : List Event} (h : Accepts p (x :: ts) s) (hi : s.input = registers p (x :: ts) ++ rest) :
    ∃ t, step s = .next t ∧ Loaded [x] s t ∧ Accepts p ts t ∧ t.input = registers p ts ++ rest := by
  obtain ⟨hbuild, hport, htable, hroom, hdistinct, hcompiles⟩ := h
  obtain ⟨⟨hfits, hpat⟩, hcompiles'⟩ := List.forall_mem_cons.mp hcompiles
  obtain ⟨c, hc⟩ := Option.isSome_iff_exists.mp hpat
  rw [List.length_cons] at hroom
  have hfresh : fresh s x.1 := fun e he hmid =>
    List.disjoint_of_nodup_append hdistinct (List.mem_map_of_mem he) (by simp [hmid])
  have hreg : (s.append (entryOfCompiled x.1 x.2.2 c)).registered = s.registered ++ [entryOfCompiled x.1 x.2.2 c] :=
    registered_append s _ (by omega)
  refine ⟨_, step_register hi hport hfits hbuild hc hfresh (by omega), ⟨rfl, rfl, rfl, ?_⟩,
    ⟨hbuild, hport, by simpa using htable, ?_, ?_, hcompiles'⟩, rfl⟩
  · change (s.append (entryOfCompiled x.1 x.2.2 c)).registered.map Entry.template = _
    simp [hreg, templateOf, hc]
  · simp only [respond_count, append_count, respond_cfg, append_cfg]
    omega
  · change ((s.append (entryOfCompiled x.1 x.2.2 c)).registered.map Entry.mid ++ _).Nodup
    simpa [hreg] using hdistinct

/-- A block that can accept a sequence of REGISTERs runs through it: by induction on the templates. -/
theorem run_registers {p : Nat} {ts : List (Nat × PatStr × Nat)} {s : State} {rest : List Event}
    (h : Accepts p ts s) (hi : s.input = registers p ts ++ rest) :
    ∃ t, (∀ n, Sys2Proof.core.run (ts.length + n) s = Sys2Proof.core.run n t) ∧ Loaded ts s t ∧ Accepts p [] t ∧
      t.input = rest := by
  induction ts generalizing s with
  | nil => exact ⟨s, fun n => by rw [List.length_nil, Nat.zero_add], .refl s, h, hi⟩
  | cons x ts ih =>
    obtain ⟨s₁, hstep, hload, haccepts, hi₁⟩ := step_register_of_accepts h hi
    obtain ⟨t, hrun, hload', haccepts', hrest⟩ := ih haccepts hi₁
    refine ⟨t, fun n => ?_, hload.cons hload', haccepts', hrest⟩
    rw [List.length_cons, Nat.add_right_comm, run_succ Sys2Proof.core _ s s₁ hstep, hrun]

/-- SEAL, announced last to a block without a recorded fault, leaves it ready on what is registered (R108, R238). -/
theorem step_sealTable_ready {s : State} {p : Nat} (hs : s.sealed = false) (hf : s.cfgFault = false)
    (hp : p < s.cfg.nLookupPorts) (hi : s.input = [.command p (encode .sealTable)]) :
    ∃ t, step s = .next t ∧ t.Ready ∧ t.status = s.status ||| 0x01#8 ∧ t.count = s.count ∧ t.input = [] ∧
      t.registered = s.registered := by
  have hstep := step_command hi hp (i := .sealTable) rfl
  rw [exec_sealTable_of_build (s := { s with port := p, input := [] }) hs] at hstep
  exact ⟨_, hstep, ⟨by simp, (cfgFault_setSealed _).trans hf⟩, rfl, rfl, rfl, rfl⟩

/-- Right after reset the block can accept any templates that compile under distinct identifiers and find room. -/
theorem initial_accepts {cfg : Config} {p : Nat} {ts : List (Nat × PatStr × Nat)} {input : List Event}
    (hp : p < cfg.nLookupPorts) (hroom : ts.length ≤ cfg.nTemplates) (hdistinct : (ts.map (fun x => x.1)).Nodup)
    (hcompiles : ∀ x ∈ ts, (Instr.register x.1 x.2.1 x.2.2).wellFormed cfg = true ∧ (compile cfg x.2.1).isSome) :
    Accepts p ts { State.initial cfg with input := input } where
  build := by simp [State.sealed]
  port := hp
  table := List.length_replicate
  room := (Nat.zero_add _).trans_le hroom
  distinct := by simpa [State.registered] using hdistinct
  compiles := hcompiles

/-- Settles O23: the REGISTERs are accepted one after the other, and SEAL leaves the block ready on their templates. -/
theorem bootSequenceMakesTheTableReady : Obligations.BootSequenceMakesTheTableReady := by
  intro cfg p ts _ hp hroom hdistinct hcompiles
  obtain ⟨s, hrun, hload, haccepts, hi⟩ := run_registers (initial_accepts hp hroom hdistinct hcompiles) rfl
  have hstatus : s.status = 0x00#8 := hload.status
  obtain ⟨t, hstep, hready, hstatus', hcount, hinput, hreg⟩ :=
    step_sealTable_ready haccepts.build (by simp [State.cfgFault, hstatus]) haccepts.port hi
  refine ⟨t, ?_, hready, by rw [hstatus', hstatus]; rfl, ?_, hinput, ?_⟩
  · rw [hrun, run_succ Sys2Proof.core 0 s t hstep]
    rfl
  · rw [hcount, hload.count]
    exact Nat.zero_add _
  · rw [hreg]
    exact hload.templates

end Sys2Proof.Machine
end

section
/-! The tags a walk shows (R107, R258): once SUPERSEDE has replaced the tag of an entry, every turn short of a reset and
of another SUPERSEDE of that identifier leaves the entry as it is (`HoldsEntry`), and a hit shows the entry it found. -/

namespace Sys2Proof.Machine

open Sys2Proof.Stated

/-- A block with the parameters `cfg` has `e` registered at index `k` (R23). -/
def HoldsEntry (cfg : Config) (k : Nat) (e : Entry) (s : State) : Prop := s.cfg = cfg ∧ s.entry? k = some e

/-! ## What replaces an entry's tag, and what leaves it (R38, R107) -/

/-- A command that the block took from a port was executed there. -/
theorem exec_of_issue {s t : State} {p : Nat} {σ : Signals} (h : s.issue (.command p σ) = .next t) :
    exec (decode s.cfg σ) { s with port := p } = .next t := by
  by_cases hp : p < s.cfg.nLookupPorts
  · rwa [issue_command s p σ hp] at h
  · rw [issue_absent s p σ hp] at h
    cases h

section Entry

variable {cfg : Config} {k : Nat} {e : Entry} {s t : State}

/-- SUPERSEDE of the entry's identifier, from any port, leaves the entry with the new tag (R107). -/
theorem holdsEntry_of_supersede {p tag : Nat} {σ : Signals} (hn : (s.registered.map Entry.mid).Nodup)
    (he : s.entry? k = some e) (hσ : decode s.cfg σ = .supersede e.mid tag)
    (h : s.issue (.command p σ) = .next t) : HoldsEntry s.cfg k { e with tag := tag } t := by
  have hexec := exec_of_issue h
  have hfind : { s with port := p }.findMid e.mid = some k := findMid_of_nodup s hn he rfl
  rw [hσ, exec_supersede_found tag hfind] at hexec
  obtain rfl := Host.Outcome.next.inj hexec
  refine ⟨rfl, ?_⟩
  change (s.retag k tag).entry? k = _
  simp [entry?_retag, he]

variable (hs : HoldsEntry cfg k e s)
include hs

/-- A command that does not supersede the entry's identifier leaves the entry (R38). -/
theorem exec_holdsEntry {i : Instr} (hi : ∀ tag, i ≠ .supersede e.mid tag) (h : exec i s = .next t) :
    HoldsEntry cfg k e t := by
  obtain ⟨hcfg, he⟩ := hs
  obtain ⟨hk, -⟩ := (entry?_eq_some s).mp he
  refine ⟨(exec_cfg h).trans hcfg, (entry?_eq_some t).mpr ⟨hk.trans_le (exec_count_le h), ?_⟩⟩
  exact (exec_registered_entry h he).resolve_right fun ⟨tag, hsup, _⟩ => hi tag hsup

theorem issue_holdsEntry {ev : Event} (hev : leavesTag cfg e.mid ev) (h : s.issue ev = .next t) :
    HoldsEntry cfg k e t := by
  cases ev with
  | rst p => exact hev.elim
  | command p σ =>
    have ⟨hcfg, _⟩ := hs
    exact exec_holdsEntry (s := { s with port := p }) hs (hcfg ▸ hev) (exec_of_issue h)

/-- A driver step changes nothing of the table (R58). -/
theorem driverStep_holdsEntry {env : Environment} {r : Reads} {labels : List JumpCallRecord} {d d' : DriverState}
    (h : driverStep env r labels s d = .running t d') : HoldsEntry cfg k e t := by
  rw [show t = _ from sameButResp_of_running h]
  exact hs

/-- A walk that goes on leaves the entry, whatever driver steps and other users' events it holds, short of a reset and
of a SUPERSEDE of its identifier. -/
theorem driverWalk_holdsEntry {env : Environment} {labels : List JumpCallRecord} {turns : List Turn}
    {d d' : DriverState} (hothers : ∀ ev, Turn.other ev ∈ turns → leavesTag cfg e.mid ev)
    (h : driverWalk env labels turns s d = .running t d') : HoldsEntry cfg k e t := by
  induction turns generalizing s d with
  | nil =>
    cases h
    exact hs
  | cons tn rest ih =>
    have hrest (ev : Event) (hev : Turn.other ev ∈ rest) := hothers ev (List.mem_cons_of_mem _ hev)
    rcases driverWalk_cons_running h with ⟨ev, s₁, rfl, hissue, hwalk⟩ | ⟨r, s₁, d₁, rfl, hstep, hwalk⟩
    · exact ih (issue_holdsEntry hs (hothers ev List.mem_cons_self) hissue) hrest hwalk
    · exact ih (driverStep_holdsEntry hs hstep) hrest hwalk

end Entry

/-! ## What a hit shows (R163, R190 to R192) -/

/-- A RESOLVE that answers `OK` shows the registered entry at the index it answers (R163). -/
theorem entry?_of_resolve_ok {s t : State} {w : Window} {av : BitVec 3} {q : Resp}
    (h : exec (.resolve w av) s = .next t) (hq : t.resp[s.port]? = some q) (hok : q.rc = .ok) :
    ∃ e, s.entry? q.tidx = some e ∧ q.tag = e.tag ∧ q.mid = e.mid := by
  obtain ⟨k, e, a, hresolve, rfl⟩ := resolve_of_ok h hq hok
  obtain ⟨hm, -⟩ := resolve?_first hresolve
  obtain ⟨_, _, hentry, -, hx⟩ := matchAt_eq_some.mp hm
  cases hx
  exact ⟨e, hentry, rfl, rfl⟩

/-- The last line of a hit is its instruction line (R197). -/
theorem driverHit_output_getLast? (env : Environment) (r : Reads) (labels : List JumpCallRecord) (q : Resp)
    (d : DriverState) : (driverHit env r labels q d).output.getLast? =
      some (.instruction (emit env q d.addr) (shownBytes r d q.len)) := by
  simp [driverHit]

/-- A driver step on code that hits shows the registered entry at the index of the response, and puts out its
instruction line last. -/
theorem driverStep_of_hit {env : Environment} {r : Reads} {labels : List JumpCallRecord} {s t : State}
    {d d' : DriverState} {q : Resp} (h : driverStep env r labels s d = .running t d') (hcode : dataLength env r d = 0)
    (hq : t.resp[d.port]? = some q) (hok : q.rc = .ok) :
    (∃ e, s.entry? q.tidx = some e ∧ q.tag = e.tag ∧ q.mid = e.mid) ∧
    d'.output.getLast? = some (.instruction (emit env q d.addr) (shownBytes r d q.len)) := by
  obtain ⟨-, ⟨hdata, -⟩ | ⟨-, -, q', hexec, hq', hend⟩⟩ := driverStep_running h
  · exact absurd hcode hdata.ne'
  · obtain rfl : q' = q := Option.some.inj (hq'.symm.trans hq)
    rcases hend with ⟨-, rfl⟩ | ⟨hmiss, -⟩
    · exact ⟨entry?_of_resolve_ok (s := { s with port := d.port }) hexec hq hok,
        driverHit_output_getLast? env r labels q' d⟩
    · simp [hmiss] at hok

/-- Settles O59: SUPERSEDE leaves the entry with the new tag, the turns between keep it, and the hit shows it. -/
theorem shownTagsFollowTheCommandOrder : Obligations.ShownTagsFollowTheCommandOrder := by
  intro env labels r s t u d d' d'' between q k e tag p σ hn hk he hσ hothers hwalk hcode hstep hq hok htidx
  have hentry : s.entry? k = some e := (entry?_eq_some s).mpr ⟨hk, he⟩
  rcases driverWalk_cons_running hwalk with ⟨ev, s₁, hev, hissue, hwalk'⟩ | ⟨r', s₁, d₁, hmine, -⟩
  · cases hev
    have hnew : HoldsEntry s.cfg k { e with tag := tag } s₁ := holdsEntry_of_supersede hn hentry hσ hissue
    obtain ⟨-, hkept⟩ : HoldsEntry s.cfg k { e with tag := tag } t := driverWalk_holdsEntry hnew hothers hwalk'
    obtain ⟨⟨e', he', htag, hmid⟩, hlast⟩ := driverStep_of_hit hstep hcode hq hok
    rw [htidx, hkept] at he'
    obtain rfl := Option.some.inj he'
    exact ⟨htag, hmid, _, _, hlast, htidx, by rw [emit, htag], by rw [emit, htag]⟩
  · cases hmine

end Sys2Proof.Machine
end

section
/-! What the decoder can put out (R79), an event on a port the block lacks (R8, R235), and the state right after reset
(R33). -/

namespace Sys2Proof.Machine

/-! ## Decoded operands fit their signals (R79, log 6) -/

section Decoded

variable (cfg : Config) (σ : Signals)

theorem midFits_decodeMid : midFits cfg (decodeMid cfg σ) = true :=
  decide_eq_true (Nat.mod_lt _ (Nat.two_pow_pos _))

theorem tagFits_decodeTag : tagFits cfg (decodeTag cfg σ) = true :=
  decide_eq_true (Nat.mod_lt _ (Nat.two_pow_pos _))

theorem tidxFits_decodeTidx : tidxFits cfg (decodeTidx cfg σ) = true :=
  decide_eq_true (Nat.mod_lt _ (Nat.two_pow_pos _))

/-- The decoder reads as many lanes of `arg_pat` as the pattern's length and the port's lanes allow. -/
theorem patFits_decodePat : patFits cfg (decodePat cfg σ) = true := by
  have hlen : (decodePat cfg σ).len < 2 ^ cfg.patLenW := Nat.mod_lt _ (Nat.two_pow_pos _)
  have hchars : (decodePat cfg σ).chars.length = min (decodePat cfg σ).len cfg.patMaxChars := by simp [decodePat]
  simp [patFits, hlen, hchars]

end Decoded

/-- Settles O2, code by code: REGISTER, SUPERSEDE and MATCH carry operands that the decoder reduced to their
wires, and the operands of RESOLVE have the width of their signals. -/
theorem decodedCommandsFitThePort : Obligations.DecodedCommandsFitThePort := by
  intro cfg σ
  unfold decode
  split
  case h_1 => rfl
  case h_2 => simp [Instr.wellFormed, midFits_decodeMid, patFits_decodePat, tagFits_decodeTag]
  case h_3 => simp [Instr.wellFormed, midFits_decodeMid, tagFits_decodeTag]
  case h_4 => rfl
  case h_5 => exact tidxFits_decodeTidx cfg σ
  case h_6 => rfl
  case h_7 => rfl
  case h_8 => rfl

/-! ## An event on an absent port (R8, R235, log 3) -/

section Absent

variable {s : State} {p : Nat} {rest : List Event} (hp : s.cfg.nLookupPorts ≤ p)
include hp

theorem step_command_absent {σ : Signals} (hi : s.input = .command p σ :: rest) : step s = .fault .noSuchPort := by
  simp [step, State.fetch, hi, Nat.not_lt.mpr hp]

theorem step_rst_absent (hi : s.input = .rst p :: rest) : step s = .fault .noSuchPort := by
  simp [step, State.fetch, hi, Nat.not_lt.mpr hp]

end Absent

/-- Settles O7, by the two kinds of event. -/
theorem eventOnAbsentPortFaults : Obligations.EventOnAbsentPortFaults := fun _ _ _ _ hp hi =>
  hi.elim (step_command_absent hp) (step_rst_absent hp)

/-! ## The state right after reset (R8, R33, logs 1 and 5) -/

/-- The parameters of the test vectors are within R8. -/
theorem vectors_wf : Config.vectors.Wf := by
  have halphabet : Config.vectors.fieldAlphabet.Sublist asciiLetters := .refl _
  exact ⟨by decide, by decide, by decide, by decide, by decide, halphabet⟩

/-- Settles O13: `State.reset` is the initial state of one configuration within R8. -/
theorem resetStateIsWellFormed : Obligations.ResetStateIsWellFormed := ⟨initial_wf vectors_wf, fun _ => initial_wf⟩

end Sys2Proof.Machine
end
